-- ==== Sys2Proof/Word.lean ====
section
/-! DEFINITION. The word types of the core: the widths of 00_scope.md rule R7. -/

namespace Sys2Proof

/-- A 32-bit data word, instruction word or byte address (R7). -/
abbrev Word := BitVec 32

/-- One byte of memory, the unit a byte address counts (R41). -/
abbrev Byte := BitVec 8

/-- A 5-bit register index, one of 0 to 31 (R7, R21). -/
abbrev RegIdx := BitVec 5

end Sys2Proof
end

