-- ==== Sys2Proof/Config.lean ====
section
/-! DEFINITION. What the spec fixes for one core and leaves as a parameter (00_scope.md rule R8), and the kinds of halt
(60_exceptions.md rule R300). The parameters' default values stand in Decode.lean and Machine/Defaults.lean. -/

namespace Sys2Proof

/-- The nine opcode classes the ControlUnit recognizes (R3, R66). -/
inductive OpClass where
  | rType
  | jump
  | branchEqual
  | addImmediate
  | setLessThanImmediate
  | setLessThanImmediateUnsigned
  | loadUpperImmediate
  | loadWord
  | storeWord
  deriving DecidableEq, Repr

/-- The parameter OPCODE_MAP: the 6-bit opcode of each class (R8, R66, decision D1). -/
structure OpcodeMap where
  rType                        : BitVec 6
  jump                         : BitVec 6
  branchEqual                  : BitVec 6
  addImmediate                 : BitVec 6
  setLessThanImmediate         : BitVec 6
  setLessThanImmediateUnsigned : BitVec 6
  loadUpperImmediate           : BitVec 6
  loadWord                     : BitVec 6
  storeWord                    : BitVec 6
  deriving DecidableEq, Repr

/-- The map read as a function of the class. -/
def OpcodeMap.opcode (m : OpcodeMap) : OpClass → BitVec 6
  | .rType => m.rType
  | .jump => m.jump
  | .branchEqual => m.branchEqual
  | .addImmediate => m.addImmediate
  | .setLessThanImmediate => m.setLessThanImmediate
  | .setLessThanImmediateUnsigned => m.setLessThanImmediateUnsigned
  | .loadUpperImmediate => m.loadUpperImmediate
  | .loadWord => m.loadWord
  | .storeWord => m.storeWord

/-- The nine opcode values of a map, in the order of rule R66. -/
def OpcodeMap.opcodes (m : OpcodeMap) : List (BitVec 6) :=
  [m.rType, m.jump, m.branchEqual, m.addImmediate, m.setLessThanImmediate, m.setLessThanImmediateUnsigned,
    m.loadUpperImmediate, m.loadWord, m.storeWord]

/-- The maps rule R8 admits: injective, and no class at 0b111111, the one value the source calls unsupported. -/
abbrev OpcodeMap.Legal (m : OpcodeMap) : Prop :=
  m.opcodes.Nodup ∧ 0b111111#6 ∉ m.opcodes

/-- The parameter MEM_ALIGN_POLARITY (R8, R44, decision D5, conflict C1). -/
inductive AlignPolarity where
  | inverted
  | conventional
  deriving DecidableEq, Repr

/-- The parameters of rule R8 that are no part of the launch state. INITIAL_MEMORY and LAUNCH_REGS are the memory and
the registers of the launch state itself. -/
structure Params where
  opcodeMap        : OpcodeMap
  /-- IMM_REGDST: `true` stands for 1, `false` for 0 (R230, decision D4). -/
  immRegDst        : Bool
  memAlignPolarity : AlignPolarity
  /-- PC0, the reset value of the PC (R28, decision D7). -/
  pc0              : Word
  deriving DecidableEq, Repr

/-- The five kinds of halt (R300). -/
inductive Halt where
  | misalignedFetch
  | unsupportedOpcode
  | unrecognizedFunction
  | memoryAlignmentFault
  | outOfRange
  deriving DecidableEq, Repr

end Sys2Proof
end

