-- ==== Sys2Proof/Syntax.lean ====
section
/-! DEFINITION. The 14 instructions (00_scope.md rule R3), one constructor for each row of spec/opcode_table.json. A
constructor holds every bit of its word outside the bits that select it, under the field names of 30_encoding.md rule
R61, so that a word and its instruction determine each other. -/

namespace Sys2Proof

/-- An instruction with its fields. Register fields are numbers (`r1` is the index, `x[r1]` the register). -/
inductive Instr where
  /-- ADD (R200). `ignored` is w[10:6], which no instruction uses (R70). -/
  | add (r1 r2 r3 : RegIdx) (ignored : BitVec 5)
  /-- SUB (R201). -/
  | sub (r1 r2 r3 : RegIdx) (ignored : BitVec 5)
  /-- AND (R202). -/
  | and (r1 r2 r3 : RegIdx) (ignored : BitVec 5)
  /-- OR (R203). -/
  | or (r1 r2 r3 : RegIdx) (ignored : BitVec 5)
  /-- SLT (R204). -/
  | slt (r1 r2 r3 : RegIdx) (ignored : BitVec 5)
  /-- SLTU (R205). -/
  | sltu (r1 r2 r3 : RegIdx) (ignored : BitVec 5)
  /-- J (R220). -/
  | j (jsec : BitVec 26)
  /-- BEQ (R221). -/
  | beq (r1 r2 : RegIdx) (offset : BitVec 16)
  /-- ADDI (R231). `r2` is no destination; r3 lies inside `offset` (R230). -/
  | addi (r1 r2 : RegIdx) (offset : BitVec 16)
  /-- SLTI (R232). -/
  | slti (r1 r2 : RegIdx) (offset : BitVec 16)
  /-- SLTIU (R233). -/
  | sltiu (r1 r2 : RegIdx) (offset : BitVec 16)
  /-- LUI (R234). `r1` is read and unused (R70). -/
  | lui (r1 r2 : RegIdx) (offset : BitVec 16)
  /-- LW (R250). -/
  | lw (r1 r2 : RegIdx) (offset : BitVec 16)
  /-- SW (R251). -/
  | sw (r1 r2 : RegIdx) (offset : BitVec 16)
  deriving DecidableEq, Repr

end Sys2Proof
end

