-- ==== Sys2Proof/WellFormed.lean ====
section
/-! DEFINITION. Which instructions the spec's encoder writes (30_encoding.md rule R73, decision D23): every field an
instruction does not use is 0. The core runs the others too, with the same effect (R70), so nothing in Machine asks for
this check; it says which of the words of one instruction is the one the spec's notation stands for (log 9). -/

namespace Sys2Proof

/-- Unused fields are 0: w[10:6] of an R-type word, and r1 of lui (R70, R73). -/
def Instr.wellFormed : Instr → Bool
  | .add _ _ _ ignored => ignored == 0#5
  | .sub _ _ _ ignored => ignored == 0#5
  | .and _ _ _ ignored => ignored == 0#5
  | .or _ _ _ ignored => ignored == 0#5
  | .slt _ _ _ ignored => ignored == 0#5
  | .sltu _ _ _ ignored => ignored == 0#5
  | .j _ => true
  | .beq _ _ _ => true
  | .addi _ _ _ => true
  | .slti _ _ _ => true
  | .sltiu _ _ _ => true
  | .lui r1 _ _ => r1 == 0#5
  | .lw _ _ _ => true
  | .sw _ _ _ => true

end Sys2Proof
end

