-- ==== Sys2Proof/Decode.lean ====
section
/-! DEFINITION. From words to instructions and back (30_encoding.md). The decoder is total on words and rejects by the
name of the halt that the core takes; after it stands the encoder, from the same tables. -/

namespace Sys2Proof

/-! The field partition of rule R61. -/

def opField (w : Word) : BitVec 6 := w.extractLsb' 26 6
def r1Field (w : Word) : RegIdx := w.extractLsb' 21 5
def r2Field (w : Word) : RegIdx := w.extractLsb' 16 5
def r3Field (w : Word) : RegIdx := w.extractLsb' 11 5
/-- Bits 10:6, which belong to no field of rule R61. -/
def ignoredField (w : Word) : BitVec 5 := w.extractLsb' 6 5
def functField (w : Word) : BitVec 6 := w.extractLsb' 0 6
def offsetField (w : Word) : BitVec 16 := w.extractLsb' 0 16
def jsecField (w : Word) : BitVec 26 := w.extractLsb' 0 26

/-- The spec's default OPCODE_MAP: the MIPS numbers (R66, decision D1; log 4). PRESUMED by the spec itself. -/
def OpcodeMap.default : OpcodeMap where
  rType := 0x00#6
  jump := 0x02#6
  branchEqual := 0x04#6
  addImmediate := 0x08#6
  setLessThanImmediate := 0x0A#6
  setLessThanImmediateUnsigned := 0x0B#6
  loadUpperImmediate := 0x0F#6
  loadWord := 0x23#6
  storeWord := 0x2B#6

/-- The class of an opcode value, none for the values outside the map (R66, R67). A map that is not injective is none
of rule R8's; for one, the class that stands first in rule R66 is taken (log 8). -/
def OpcodeMap.classify (m : OpcodeMap) (op : BitVec 6) : Option OpClass :=
  if op = m.rType then some .rType
  else if op = m.jump then some .jump
  else if op = m.branchEqual then some .branchEqual
  else if op = m.addImmediate then some .addImmediate
  else if op = m.setLessThanImmediate then some .setLessThanImmediate
  else if op = m.setLessThanImmediateUnsigned then some .setLessThanImmediateUnsigned
  else if op = m.loadUpperImmediate then some .loadUpperImmediate
  else if op = m.loadWord then some .loadWord
  else if op = m.storeWord then some .storeWord
  else none

/-- The R-type instruction of a word, by its funct field (R68); any other funct is rejected (R69, R206). -/
def decodeRType (w : Word) : Except Halt Instr :=
  if functField w = 0x20#6 then .ok (.add (r1Field w) (r2Field w) (r3Field w) (ignoredField w))
  else if functField w = 0x22#6 then .ok (.sub (r1Field w) (r2Field w) (r3Field w) (ignoredField w))
  else if functField w = 0x24#6 then .ok (.and (r1Field w) (r2Field w) (r3Field w) (ignoredField w))
  else if functField w = 0x25#6 then .ok (.or (r1Field w) (r2Field w) (r3Field w) (ignoredField w))
  else if functField w = 0x2A#6 then .ok (.slt (r1Field w) (r2Field w) (r3Field w) (ignoredField w))
  else if functField w = 0x2B#6 then .ok (.sltu (r1Field w) (r2Field w) (r3Field w) (ignoredField w))
  else .error .unrecognizedFunction

/-- The instruction of a word: the opcode is classified before the funct field is examined (R66 to R72). -/
def decode (m : OpcodeMap) (w : Word) : Except Halt Instr :=
  match m.classify (opField w) with
  | none => .error .unsupportedOpcode
  | some .rType => decodeRType w
  | some .jump => .ok (.j (jsecField w))
  | some .branchEqual => .ok (.beq (r1Field w) (r2Field w) (offsetField w))
  | some .addImmediate => .ok (.addi (r1Field w) (r2Field w) (offsetField w))
  | some .setLessThanImmediate => .ok (.slti (r1Field w) (r2Field w) (offsetField w))
  | some .setLessThanImmediateUnsigned => .ok (.sltiu (r1Field w) (r2Field w) (offsetField w))
  | some .loadUpperImmediate => .ok (.lui (r1Field w) (r2Field w) (offsetField w))
  | some .loadWord => .ok (.lw (r1Field w) (r2Field w) (offsetField w))
  | some .storeWord => .ok (.sw (r1Field w) (r2Field w) (offsetField w))

/-! The encoder: the formats of 30_encoding.md section 2. -/

/-- The R format. -/
def encodeR (op : BitVec 6) (r1 r2 r3 : RegIdx) (ignored : BitVec 5) (funct : BitVec 6) : Word :=
  op ++ r1 ++ r2 ++ r3 ++ ignored ++ funct

/-- The I format. -/
def encodeI (op : BitVec 6) (r1 r2 : RegIdx) (offset : BitVec 16) : Word :=
  op ++ r1 ++ r2 ++ offset

/-- The J format. -/
def encodeJ (op : BitVec 6) (jsec : BitVec 26) : Word :=
  op ++ jsec

/-- The word of an instruction (R61, R66, R68). -/
def encode (m : OpcodeMap) : Instr → Word
  | .add r1 r2 r3 ignored => encodeR m.rType r1 r2 r3 ignored 0x20#6
  | .sub r1 r2 r3 ignored => encodeR m.rType r1 r2 r3 ignored 0x22#6
  | .and r1 r2 r3 ignored => encodeR m.rType r1 r2 r3 ignored 0x24#6
  | .or r1 r2 r3 ignored => encodeR m.rType r1 r2 r3 ignored 0x25#6
  | .slt r1 r2 r3 ignored => encodeR m.rType r1 r2 r3 ignored 0x2A#6
  | .sltu r1 r2 r3 ignored => encodeR m.rType r1 r2 r3 ignored 0x2B#6
  | .j jsec => encodeJ m.jump jsec
  | .beq r1 r2 offset => encodeI m.branchEqual r1 r2 offset
  | .addi r1 r2 offset => encodeI m.addImmediate r1 r2 offset
  | .slti r1 r2 offset => encodeI m.setLessThanImmediate r1 r2 offset
  | .sltiu r1 r2 offset => encodeI m.setLessThanImmediateUnsigned r1 r2 offset
  | .lui r1 r2 offset => encodeI m.loadUpperImmediate r1 r2 offset
  | .lw r1 r2 offset => encodeI m.loadWord r1 r2 offset
  | .sw r1 r2 offset => encodeI m.storeWord r1 r2 offset

/-- The instruction this decoder reads, under the default OPCODE_MAP, from the word whose low `nbits` bits are `w`,
numbered as spec/opcode_table.json numbers them. -/
def decodeTableWord (nbits w : Nat) : Option Instr :=
  match decode OpcodeMap.default (BitVec.ofNat 32 (w % 2 ^ nbits)) with
  | .ok i => some i
  | .error _ => none

end Sys2Proof
end

