-- ==== Sys2Proof/Machine/Defaults.lean ====
section
/-! DEFINITION. The parameter values the spec uses in every example and test vector (00_scope.md rule R8; log 4). -/

namespace Sys2Proof.Machine

/-- The defaults of rule R8: decisions D1 (OPCODE_MAP), D4 (IMM_REGDST), D5 (MEM_ALIGN_POLARITY) and D7 (PC0). -/
def defaultParams : Params where
  opcodeMap := OpcodeMap.default
  immRegDst := false
  memAlignPolarity := .inverted
  pc0 := 0x00000000#32

end Sys2Proof.Machine
end

