-- ==== Sys2Proof/Machine/State.lean ====
section
/-! DEFINITION. The state of the core between two cycles (10_state.md rule R20), the reasons a step can stop, and the
state after reset. -/

namespace Sys2Proof.Machine

/-- Memory as byte cells (address, value): the 65536 backed bytes of rule R40, addresses rising, and a byte that holds
what an unlisted address reads as is not listed (Machine/Ops.lean, `Memory.wf`; log 1 and log 2). -/
abbrev Memory := List Host.Cell

/-- The tuple (x[0..31], PC, M[0..16383], HALT) of rule R20, and the parameters of rule R8. `params` is the model's own
field, no part of the architecture: nothing writes it (log 3). -/
structure State where
  /-- The 32 general registers; register 0 is an ordinary one (R21). -/
  x      : Vector Word 32
  /-- The program counter, a byte address (R25). -/
  pc     : Word
  /-- The one memory, for code and data (R34, R40). -/
  mem    : Memory
  /-- HALT: 0 is running, 1 to 5 is a halt code (R33, R300). -/
  halt   : BitVec 3
  params : Params
  deriving DecidableEq, Repr

/-- What stops the machine with a fault. -/
inductive Fault where
  /-- A fetch or a permitted data access at a word index of 16384 or more (R42, R300, decision D6): raised by
  `raiseHalt`, which fetch, lw and sw call. The source gives no behaviour there, and the spec says that "a model treats it
  as a fault". `final` is what rule R132 leaves for the host to read: HALT = 5 and nothing else changed. Safe: the run
  stops, and no claim may take `final` as the chip's (log 5). -/
  | outOfRange (final : State)
  deriving DecidableEq, Repr

/-- What the machine answers where an instruction has no meaning. -/
inductive Refusal where
  /-- Raised by an arm of `exec` whose instruction has no meaning yet; no arm does. Safe: the run stops. -/
  | notModelled (mnemonic : String)
  deriving DecidableEq, Repr

/-- The machine right after reset with the default parameters: registers 0 (R24), PC = PC0 (R28), HALT = 0 (R33).
Reset does not change memory (R56); the list is empty because no image has been loaded (log 2, log 7). -/
def State.reset : State where
  x := Vector.replicate 32 0#32
  pc := defaultParams.pc0
  mem := []
  halt := 0#3
  params := defaultParams

end Sys2Proof.Machine
end

