-- ==== Sys2Proof/Machine/Ops.lean ====
section
/-! DEFINITION. The named operations over memory, registers, PC and HALT: the access primitives of 20_memory.md, the
register ports of 10_state.md, halting (60_exceptions.md rule R300, 40_datapath.md rule R132) and, beside it, the host's
two ways to set the state (70_reset_and_hazards.md rules R340 and R344). -/

namespace Sys2Proof.Machine

/-! Bytes of memory. -/

/-- Memory is 65536 bytes, which are 16384 words (R40). -/
def memoryWords : Nat := 16384

/-- What a byte that is not listed reads as. DESIGN CHOICE: it only fixes how an image is written down as a list, and
what State.reset's empty list holds; a state may hold any image (log 2). -/
def Memory.unlisted : Byte := 0#8

/-- The byte at an address. -/
def Memory.getByte : Memory → Nat → Byte
  | [], _ => Memory.unlisted
  | (a, b) :: m, k => if a = k then b else Memory.getByte m k

/-- Memory with one byte replaced; the canonical form is kept (Laws/Memory.lean). -/
def Memory.setByte : Memory → Nat → Byte → Memory
  | [], k, v => if v = Memory.unlisted then [] else [(k, v)]
  | (a, b) :: m, k, v =>
    if k < a then (if v = Memory.unlisted then (a, b) :: m else (k, v) :: (a, b) :: m)
    else if k = a then (if v = Memory.unlisted then m else (k, v) :: m)
    else (a, b) :: Memory.setByte m k v

/-- The canonical form from address `lo` on: strictly rising addresses, all backed, none with the unlisted value. -/
def Memory.wfFrom : Nat → Memory → Bool
  | _, [] => true
  | lo, (a, b) :: m =>
    decide (lo ≤ a) && decide (a < 4 * memoryWords) && decide (b ≠ Memory.unlisted) && Memory.wfFrom (a + 1) m

/-- The canonical form of memory. -/
def Memory.wf (m : Memory) : Bool := Memory.wfFrom 0 m

/-! Words of memory. The least significant byte of a word lies at its lowest address: DESIGN CHOICE, which no
instruction can see, since every access moves a whole word (R47, R48; log 1). -/

/-- M[k] (R40). -/
def Memory.readWord (m : Memory) (k : Nat) : Word :=
  Memory.getByte m (4 * k + 3) ++ Memory.getByte m (4 * k + 2) ++ Memory.getByte m (4 * k + 1) ++ Memory.getByte m (4 * k)

/-- Memory with M[k] replaced. -/
def Memory.writeWord (m : Memory) (k : Nat) (v : Word) : Memory :=
  Memory.setByte (Memory.setByte (Memory.setByte (Memory.setByte m (4 * k) (v.extractLsb' 0 8))
    (4 * k + 1) (v.extractLsb' 8 8)) (4 * k + 2) (v.extractLsb' 16 8)) (4 * k + 3) (v.extractLsb' 24 8)

/-- Memory that holds an image, a list of words, from the word index `k` on; words past the capacity are dropped. -/
def Memory.ofImage : Nat → List Word → Memory
  | _, [] => []
  | k, w :: image => if k < memoryWords then Memory.writeWord (Memory.ofImage (k + 1) image) k w else []

/-- The word index of a byte address (R41). -/
def idx (a : Word) : Nat := (a >>> 2).toNat

/-- The low two address bits, which matter to the alignment checks alone (R41). -/
def lowBits (a : Word) : BitVec 2 := a.extractLsb' 0 2

/-! State updates, one for each field. -/

/-- x[r], with no special register (R21). -/
def readReg (s : State) (r : RegIdx) : Word := s.x[r.toNat]'r.isLt

/-- x[r] <- v, register 0 included (R21, R22). -/
def writeReg (r : RegIdx) (v : Word) (s : State) : State := { s with x := s.x.set r.toNat v r.isLt }

def setPc (v : Word) (s : State) : State := { s with pc := v }

def setMem (m : Memory) (s : State) : State := { s with mem := m }

def setHalt (c : BitVec 3) (s : State) : State := { s with halt := c }

/-- pc <- PC + 4, modulo 2^32 (R27, R130). -/
def advancePc (s : State) : State := setPc (s.pc + 4#32) s

/-! Halting. -/

/-- The code of a halt (R300, decision D12). -/
def haltCode : Halt → BitVec 3
  | .misalignedFetch => 1#3
  | .unsupportedOpcode => 2#3
  | .unrecognizedFunction => 3#3
  | .memoryAlignmentFault => 4#3
  | .outOfRange => 5#3

/-- A cycle that ends in a halt: HALT takes the code, and no register, memory or PC write commits (R132, R133). The
source's four halts are next states; OutOfRange, the spec's model fault, is a fault (R300, decision D6; log 5, log 6).
There is no handler and no return from a halt (R304, R305); what leaves the halted state is `State.resetInput`. -/
def raiseHalt (h : Halt) (s : State) : Host.Outcome State Fault Refusal :=
  match h with
  | .misalignedFetch => .next (setHalt (haltCode .misalignedFetch) s)
  | .unsupportedOpcode => .next (setHalt (haltCode .unsupportedOpcode) s)
  | .unrecognizedFunction => .next (setHalt (haltCode .unrecognizedFunction) s)
  | .memoryAlignmentFault => .next (setHalt (haltCode .memoryAlignmentFault) s)
  | .outOfRange => .fault (.outOfRange (setHalt (haltCode .outOfRange) s))

/-- The host asserts reset: registers 0, PC = PC0, HALT = 0, memory unchanged, no cycle executed (R340). -/
def State.resetInput (s : State) : State :=
  { s with x := Vector.replicate 32 0#32, pc := s.params.pc0, halt := 0#3 }

/-- The launch state: reset, with the image of up to 16384 words and, for tests, the registers the host has placed (R56,
R342, R344, decisions D8 and D18; log 10). -/
def State.launch (p : Params) (image : List Word) (regs : Vector Word 32) : State where
  x := regs
  pc := p.pc0
  mem := Memory.ofImage 0 image
  halt := 0#3
  params := p

/-! Access primitives. -/

/-- `data_ok(a)` under a polarity (R44). -/
def dataOk (p : AlignPolarity) (a : Word) : Bool :=
  match p with
  | .inverted => decide (lowBits a ≠ 0#2)
  | .conventional => decide (lowBits a = 0#2)

/-- MemFetch (R43). -/
def memFetch (s : State) (a : Word) : Except Halt Word :=
  if lowBits a ≠ 0#2 then .error .misalignedFetch
  else if idx a ≥ memoryWords then .error .outOfRange
  else .ok (Memory.readWord s.mem (idx a))

/-- MemRead of one word (R45). -/
def memRead (s : State) (a : Word) : Except Halt Word :=
  if dataOk s.params.memAlignPolarity a = false then .error .memoryAlignmentFault
  else if idx a ≥ memoryWords then .error .outOfRange
  else .ok (Memory.readWord s.mem (idx a))

/-- MemWrite of one word (R46): the state with M[idx(a)] replaced. -/
def memWrite (s : State) (a : Word) (v : Word) : Except Halt State :=
  if dataOk s.params.memAlignPolarity a = false then .error .memoryAlignmentFault
  else if idx a ≥ memoryWords then .error .outOfRange
  else .ok (setMem (Memory.writeWord s.mem (idx a) v) s)

/-! Placing a word where the next cycle fetches (the host's load, for one word; log 7). -/

/-- A PC from which a fetch succeeds (R43). -/
def fetchable (a : Word) : Bool := decide (lowBits a = 0#2) && decide (idx a < memoryWords)

/-- The state made ready to run the word `w` in its next cycle: running, its PC kept where a fetch from it succeeds
and 0 otherwise, and `w` at that PC. -/
def placeNextWord (s : State) (w : Word) : State :=
  let pc := if fetchable s.pc then s.pc else 0#32
  setMem (Memory.writeWord s.mem (idx pc) w) (setPc pc (setHalt 0#3 s))

end Sys2Proof.Machine
end

