-- ==== Sys2Proof/Machine/Operands.lean ====
section
/-! DEFINITION. The operand forms: the sign-extended immediate, the address of a data access, the register number inside
an immediate, and the two targets of a control transfer; and which register and which address an instruction's operands
name. -/

namespace Sys2Proof.Machine

/-- The sign-extension unit: `sext_32` (R63). -/
def sext32 (offset : BitVec 16) : Word := offset.signExtend 32

/-- The address of lw and sw: base register plus sign-extended offset, modulo 2^32 (R250, R251). -/
def effectiveAddress (s : State) (r1 : RegIdx) (offset : BitVec 16) : Word := readReg s r1 + sext32 offset

/-- The r3 field of an I-format word: bits 15:11 of its immediate (R62, R230). -/
def offsetR3 (offset : BitVec 16) : RegIdx := offset.extractLsb' 11 5

/-- The jump target: jsec in bits 27:2, bits 31:28 those of the incremented PC (R65). -/
def jumpTarget (npc : Word) (jsec : BitVec 26) : Word := (jsec.setWidth 32 <<< 2) ||| (npc &&& 0xF0000000#32)

/-- The branch displacement in bytes (R64). -/
def branchDisplacement (offset : BitVec 16) : Word := sext32 offset <<< 2

/-- The register an instruction writes, if it writes one (R23). -/
def destination (p : Params) : Instr → Option RegIdx
  | .add _ _ r3 _ => some r3
  | .sub _ _ r3 _ => some r3
  | .and _ _ r3 _ => some r3
  | .or _ _ r3 _ => some r3
  | .slt _ _ r3 _ => some r3
  | .sltu _ _ r3 _ => some r3
  | .j _ => none
  | .beq _ _ _ => none
  | .addi _ _ offset => if p.immRegDst then some (offsetR3 offset) else none
  | .slti _ _ offset => if p.immRegDst then some (offsetR3 offset) else none
  | .sltiu _ _ offset => if p.immRegDst then some (offsetR3 offset) else none
  | .lui _ _ offset => if p.immRegDst then some (offsetR3 offset) else none
  | .lw _ r2 _ => some r2
  | .sw _ _ _ => none

/-- The address of the data access an instruction makes, if it makes one (R250, R251). -/
def dataAddress (s : State) : Instr → Option Word
  | .add _ _ _ _ => none
  | .sub _ _ _ _ => none
  | .and _ _ _ _ => none
  | .or _ _ _ _ => none
  | .slt _ _ _ _ => none
  | .sltu _ _ _ _ => none
  | .j _ => none
  | .beq _ _ _ => none
  | .addi _ _ _ => none
  | .slti _ _ _ => none
  | .sltiu _ _ _ => none
  | .lui _ _ _ => none
  | .lw r1 _ offset => some (effectiveAddress s r1 offset)
  | .sw r1 _ offset => some (effectiveAddress s r1 offset)

end Sys2Proof.Machine
end

