-- ==== Sys2Proof/Machine/Flags.lean ====
section
/-! DEFINITION. The ALU: its eight operations and its one flag (40_datapath.md rules R101 to R111). -/

namespace Sys2Proof.Machine

/-- The eight ALU operations, in the order of their codes 0 to 7 (R102 to R109). -/
inductive AluOp where
  | add
  | subtract
  | signedLessThan
  | unsignedLessThan
  | and
  | or
  | shiftLeft16
  | not
  deriving DecidableEq, Repr

/-- ALU operation 2: the signed comparison of the low halves alone (R104, decision D15; log 11). -/
def narrowSignedLess (a b : Word) : Bool :=
  decide ((sext32 (a.extractLsb' 0 16)).toInt < (sext32 (b.extractLsb' 0 16)).toInt)

/-- A comparison's result as a word. -/
def boolWord (c : Bool) : Word := if c then 1#32 else 0#32

/-- The Result output of the ALU (R102 to R109). -/
def aluResult (op : AluOp) (a b : Word) : Word :=
  match op with
  | .add => a + b
  | .subtract => a - b
  | .signedLessThan => boolWord (narrowSignedLess a b)
  | .unsignedLessThan => boolWord (decide (a.toNat < b.toNat))
  | .and => a &&& b
  | .or => a ||| b
  | .shiftLeft16 => b <<< 16
  | .not => ~~~a

/-- The Zero output of the ALU, its only flag; it is stored nowhere (R29, R110, R111). -/
def zeroFlag (result : Word) : Bool := decide (result = 0#32)

end Sys2Proof.Machine
end

