-- ==== Sys2Proof/Machine/Immediate.lean ====
section
/-! DEFINITION. The four ALU-immediate instructions (43_immediate.md). -/

namespace Sys2Proof.Machine

/-- Their write-back: no register under IMM_REGDST = 0, x[offset[15:11]] under IMM_REGDST = 1 (R230, conflict C3). -/
def immWriteBack (offset : BitVec 16) (result : Word) (s : State) : State :=
  if s.params.immRegDst then writeReg (offsetR3 offset) result s else s

/-- What the four share: the ALU result of x[r1] and the sign-extended immediate, and the PC moves on. -/
def aluImmediate (op : AluOp) (r1 : RegIdx) (offset : BitVec 16) (s : State) : Host.Outcome State Fault Refusal :=
  .next (advancePc (immWriteBack offset (aluResult op (readReg s r1) (sext32 offset)) s))

/-- ADDI (R231). -/
def execAddi (r1 _r2 : RegIdx) (offset : BitVec 16) (s : State) : Host.Outcome State Fault Refusal :=
  aluImmediate .add r1 offset s

/-- SLTI, the narrow comparison (R232). -/
def execSlti (r1 _r2 : RegIdx) (offset : BitVec 16) (s : State) : Host.Outcome State Fault Refusal :=
  aluImmediate .signedLessThan r1 offset s

/-- SLTIU: the immediate is sign-extended, then compared unsigned (R233). -/
def execSltiu (r1 _r2 : RegIdx) (offset : BitVec 16) (s : State) : Host.Outcome State Fault Refusal :=
  aluImmediate .unsignedLessThan r1 offset s

/-- LUI (R234). -/
def execLui (r1 _r2 : RegIdx) (offset : BitVec 16) (s : State) : Host.Outcome State Fault Refusal :=
  aluImmediate .shiftLeft16 r1 offset s

end Sys2Proof.Machine
end

