-- ==== Sys2Proof/Machine/JumpBranch.lean ====
section
/-! DEFINITION. The two control transfers (42_jump_branch.md). Neither has a delay slot. -/

namespace Sys2Proof.Machine

/-- J (R220): its ALU result and its register reads are unused. -/
def execJ (jsec : BitVec 26) (s : State) : Host.Outcome State Fault Refusal :=
  .next (setPc (jumpTarget (s.pc + 4#32) jsec) s)

/-- BEQ (R221): taken when the subtraction of the full 32 bits is zero. -/
def execBeq (r1 r2 : RegIdx) (offset : BitVec 16) (s : State) : Host.Outcome State Fault Refusal :=
  let npc := s.pc + 4#32
  if zeroFlag (aluResult .subtract (readReg s r1) (readReg s r2)) then
    .next (setPc (npc + branchDisplacement offset) s)
  else .next (setPc npc s)

end Sys2Proof.Machine
end

