-- ==== Sys2Proof/Machine/LoadStore.lean ====
section
/-! DEFINITION. Load word and store word (44_load_store.md). -/

namespace Sys2Proof.Machine

/-- LW (R250): the base is read before the destination is written, so r1 and r2 may be the same register. -/
def execLw (r1 r2 : RegIdx) (offset : BitVec 16) (s : State) : Host.Outcome State Fault Refusal :=
  match memRead s (effectiveAddress s r1 offset) with
  | .error h => raiseHalt h s
  | .ok memdata => .next (advancePc (writeReg r2 memdata s))

/-- SW (R251). -/
def execSw (r1 r2 : RegIdx) (offset : BitVec 16) (s : State) : Host.Outcome State Fault Refusal :=
  match memWrite s (effectiveAddress s r1 offset) (readReg s r2) with
  | .error h => raiseHalt h s
  | .ok stored => .next (advancePc stored)

end Sys2Proof.Machine
end

