-- ==== Sys2Proof/Machine/RType.lean ====
section
/-! DEFINITION. The six R-type instructions (41_rtype.md). -/

namespace Sys2Proof.Machine

/-- What the six share: x[r3] takes the ALU result of x[r1] and x[r2], read before the write, and the PC moves on. -/
def aluToR3 (op : AluOp) (r1 r2 r3 : RegIdx) (s : State) : Host.Outcome State Fault Refusal :=
  .next (advancePc (writeReg r3 (aluResult op (readReg s r1) (readReg s r2)) s))

/-- ADD (R200). -/
def execAdd (r1 r2 r3 : RegIdx) (_ignored : BitVec 5) (s : State) : Host.Outcome State Fault Refusal :=
  aluToR3 .add r1 r2 r3 s

/-- SUB (R201). -/
def execSub (r1 r2 r3 : RegIdx) (_ignored : BitVec 5) (s : State) : Host.Outcome State Fault Refusal :=
  aluToR3 .subtract r1 r2 r3 s

/-- AND (R202). -/
def execAnd (r1 r2 r3 : RegIdx) (_ignored : BitVec 5) (s : State) : Host.Outcome State Fault Refusal :=
  aluToR3 .and r1 r2 r3 s

/-- OR (R203). -/
def execOr (r1 r2 r3 : RegIdx) (_ignored : BitVec 5) (s : State) : Host.Outcome State Fault Refusal :=
  aluToR3 .or r1 r2 r3 s

/-- SLT, the narrow comparison (R204). -/
def execSlt (r1 r2 r3 : RegIdx) (_ignored : BitVec 5) (s : State) : Host.Outcome State Fault Refusal :=
  aluToR3 .signedLessThan r1 r2 r3 s

/-- SLTU (R205). -/
def execSltu (r1 r2 r3 : RegIdx) (_ignored : BitVec 5) (s : State) : Host.Outcome State Fault Refusal :=
  aluToR3 .unsignedLessThan r1 r2 r3 s

end Sys2Proof.Machine
end

