-- ==== Sys2Proof/Machine/Step.lean ====
section
/-! DEFINITION. One cycle of the core (40_datapath.md rule R131), by decoding the fetched word to an instruction. The same
cycle as the composition of the datapath's units stands in Machine/Datapath.lean. -/

namespace Sys2Proof.Machine

/-- One cycle: a halted core stays as it is (R134); fetch, decode and the instruction's own accesses halt in that
order (R302); otherwise the instruction has its effect. -/
def step (s : State) : Host.Outcome State Fault Refusal :=
  if s.halt ≠ 0#3 then .next s
  else
    match memFetch s s.pc with
    | .error h => raiseHalt h s
    | .ok w =>
      match decode s.params.opcodeMap w with
      | .error h => raiseHalt h s
      | .ok i => exec i s

/-- `s` with the instruction whose low `nbits` bits are `w` placed where the next cycle fetches (log 7). -/
def State.withFetchWord (s : State) (nbits w : Nat) : State :=
  placeNextWord s (BitVec.ofNat 32 (w % 2 ^ nbits))

end Sys2Proof.Machine
end

