-- ==== Sys2Proof/Machine/Datapath.lean ====
section
/-! DEFINITION. The units of the datapath as hardware (40_datapath.md), each with the ports the spec gives it, and their
composition into one cycle (rule R131). `step` runs the instructions' own meanings instead; the two are written apart,
from different files of the spec, so that their agreement is a theorem worth having. -/

namespace Sys2Proof.Machine.Datapath

/-- The control signals, with the widths of rule R114. -/
structure ControlSignals where
  regDst   : BitVec 2
  jump     : BitVec 1
  branch   : BitVec 1
  memRead  : BitVec 1
  memtoReg : BitVec 1
  aluOp    : BitVec 3
  memWrite : BitVec 1
  aluSrc   : BitVec 1
  regWrite : BitVec 1
  deriving DecidableEq, Repr

/-- The outputs of the InstructionDecoder (R113). -/
structure Fields where
  op     : BitVec 6
  r1     : RegIdx
  r2     : RegIdx
  r3     : RegIdx
  funct  : BitVec 6
  offset : BitVec 16
  jsec   : BitVec 26
  deriving DecidableEq, Repr

/-- The InstructionDecoder: bit extraction alone, for every word (R61, R62, R113). -/
def instructionDecoder (w : Word) : Fields where
  op := w.extractLsb' 26 6
  r1 := w.extractLsb' 21 5
  r2 := w.extractLsb' 16 5
  r3 := w.extractLsb' 11 5
  funct := w.extractLsb' 0 6
  offset := w.extractLsb' 0 16
  jsec := w.extractLsb' 0 26

/-- The operation of an ALU code (R102 to R109). -/
def aluOpOfCode (code : BitVec 3) : AluOp :=
  if code = 0#3 then .add
  else if code = 1#3 then .subtract
  else if code = 2#3 then .signedLessThan
  else if code = 3#3 then .unsignedLessThan
  else if code = 4#3 then .and
  else if code = 5#3 then .or
  else if code = 6#3 then .shiftLeft16
  else .not

/-- The ALU with its ports: (Result, Zero) (R101). -/
def alu (a b : Word) (aluControl : BitVec 3) : Word × Bool :=
  let result := aluResult (aluOpOfCode aluControl) a b
  (result, zeroFlag result)

/-- The RegDst cell of the four ALU-immediate rows (R115, decision D4). -/
def immRegDstCell (p : Params) : BitVec 2 := if p.immRegDst then 1#2 else 0#2

/-- The look-up table of rule R115, one row for each class. -/
def controlRow (p : Params) : OpClass → ControlSignals
  | .rType =>
    { regDst := 1#2, jump := 0#1, branch := 0#1, memRead := 0#1, memtoReg := 0#1,
      aluOp := 7#3, memWrite := 0#1, aluSrc := 0#1, regWrite := 1#1 }
  | .jump =>
    { regDst := 2#2, jump := 1#1, branch := 0#1, memRead := 0#1, memtoReg := 0#1,
      aluOp := 0#3, memWrite := 0#1, aluSrc := 0#1, regWrite := 0#1 }
  | .branchEqual =>
    { regDst := 2#2, jump := 0#1, branch := 1#1, memRead := 0#1, memtoReg := 0#1,
      aluOp := 1#3, memWrite := 0#1, aluSrc := 0#1, regWrite := 0#1 }
  | .addImmediate =>
    { regDst := immRegDstCell p, jump := 0#1, branch := 0#1, memRead := 0#1, memtoReg := 0#1,
      aluOp := 0#3, memWrite := 0#1, aluSrc := 1#1, regWrite := 1#1 }
  | .setLessThanImmediate =>
    { regDst := immRegDstCell p, jump := 0#1, branch := 0#1, memRead := 0#1, memtoReg := 0#1,
      aluOp := 2#3, memWrite := 0#1, aluSrc := 1#1, regWrite := 1#1 }
  | .setLessThanImmediateUnsigned =>
    { regDst := immRegDstCell p, jump := 0#1, branch := 0#1, memRead := 0#1, memtoReg := 0#1,
      aluOp := 3#3, memWrite := 0#1, aluSrc := 1#1, regWrite := 1#1 }
  | .loadUpperImmediate =>
    { regDst := immRegDstCell p, jump := 0#1, branch := 0#1, memRead := 0#1, memtoReg := 0#1,
      aluOp := 6#3, memWrite := 0#1, aluSrc := 1#1, regWrite := 1#1 }
  | .loadWord =>
    { regDst := 0#2, jump := 0#1, branch := 0#1, memRead := 1#1, memtoReg := 1#1,
      aluOp := 0#3, memWrite := 0#1, aluSrc := 1#1, regWrite := 1#1 }
  | .storeWord =>
    { regDst := 2#2, jump := 0#1, branch := 0#1, memRead := 0#1, memtoReg := 0#1,
      aluOp := 0#3, memWrite := 1#1, aluSrc := 1#1, regWrite := 0#1 }

/-- The ControlUnit: the row of the opcode's class, or the halt of an opcode outside OPCODE_MAP (R114 to R116). -/
def controlUnit (p : Params) (op : BitVec 6) : Except Halt ControlSignals :=
  match p.opcodeMap.classify op with
  | none => .error .unsupportedOpcode
  | some c => .ok (controlRow p c)

/-- Operand Read: (data1, data2) (R118). -/
def operandRead (s : State) (f : Fields) : Word × Word := (readReg s f.r1, readReg s f.r2)

/-- The ALU's B input (R119). -/
def selectB (ctl : ControlSignals) (extended data2 : Word) : Word :=
  if ctl.aluSrc = 1#1 then extended else data2

/-- The ALUControlResolver (R120, R121). -/
def aluControlResolver (aluOp : BitVec 3) (funct : BitVec 6) : Except Halt (BitVec 3) :=
  if aluOp = 7#3 then
    if funct = 0x20#6 then .ok 0#3
    else if funct = 0x22#6 then .ok 1#3
    else if funct = 0x24#6 then .ok 4#3
    else if funct = 0x25#6 then .ok 5#3
    else if funct = 0x2A#6 then .ok 2#3
    else if funct = 0x2B#6 then .ok 3#3
    else .error .unrecognizedFunction
  else .ok aluOp

/-- The load of the MemoryAccessUnit: memdata, which is 0 in a cycle without a load (R125, R126). -/
def memoryLoad (ctl : ControlSignals) (s : State) (aluResult : Word) : Except Halt Word :=
  if ctl.memRead = 1#1 then memRead s aluResult else .ok 0#32

/-- The store of the MemoryAccessUnit (R125). -/
def memoryStore (ctl : ControlSignals) (s : State) (aluResult data2 : Word) : Except Halt State :=
  if ctl.memWrite = 1#1 then memWrite s aluResult data2 else .ok s

/-- The WriteBackUnit (R127, R128). -/
def writeBack (ctl : ControlSignals) (f : Fields) (memdata aluResult : Word) (s : State) : State :=
  if ctl.regWrite = 1#1 then
    if ctl.memtoReg = 1#1 ∧ ctl.regDst = 0#2 then writeReg f.r2 memdata s
    else if ctl.memtoReg = 0#1 ∧ ctl.regDst = 1#2 then writeReg f.r3 aluResult s
    else s
  else s

/-- The PCUpdateUnit: three sequential adjustments, the combined jump and branch among them (R129, R130). -/
def pcUpdate (pc : Word) (jsec : BitVec 26) (extended : Word) (jump branch : BitVec 1) (zero : Bool) : Word :=
  let incremented := pc + 4#32
  let jumped := if jump = 1#1 then (jsec.setWidth 32 <<< 2) ||| (incremented &&& 0xF0000000#32) else incremented
  if branch = 1#1 ∧ zero = true then jumped + (extended <<< 2) else jumped

/-- The cycle after the ControlUnit and the resolver: ALU, memory access, write-back and PC update (R123 to R131). -/
def completeCycle (s : State) (f : Fields) (ctl : ControlSignals) (aluControl : BitVec 3) :
    Host.Outcome State Fault Refusal :=
  let (data1, data2) := operandRead s f
  let extended := sext32 f.offset
  let (result, zero) := alu data1 (selectB ctl extended data2) aluControl
  match memoryLoad ctl s result with
  | .error h => raiseHalt h s
  | .ok memdata =>
    match memoryStore ctl s result data2 with
    | .error h => raiseHalt h s
    | .ok stored =>
      .next (setPc (pcUpdate s.pc f.jsec extended ctl.jump ctl.branch zero) (writeBack ctl f memdata result stored))

/-- One cycle as the composition of the units (R131, R132, R134). -/
def cycle (s : State) : Host.Outcome State Fault Refusal :=
  if s.halt ≠ 0#3 then .next s
  else
    match memFetch s s.pc with
    | .error h => raiseHalt h s
    | .ok w =>
      let f := instructionDecoder w
      match controlUnit s.params f.op with
      | .error h => raiseHalt h s
      | .ok ctl =>
        match aluControlResolver ctl.aluOp f.funct with
        | .error h => raiseHalt h s
        | .ok aluControl => completeCycle s f ctl aluControl

end Sys2Proof.Machine.Datapath
end

