-- ==== Sys2Proof/Machine/Run.lean ====
section
/-! DEFINITION. A run and its outcome (70_reset_and_hazards.md rule R343), and what the host may read of it (rule R344). -/

namespace Sys2Proof.Machine

/-- The outcome of a run: (HALT, PC, x[0..31], M[0..16383]) at its end (R343), which is all that the host's report reads
(R344). -/
structure RunOutcome where
  halt : BitVec 3
  pc   : Word
  x    : Vector Word 32
  mem  : Memory
  deriving DecidableEq, Repr

/-- How a run under a bound on its cycles ends (R343, decision D22; log 13). -/
inductive RunEnd where
  /-- A cycle after which HALT is not 0, one of the source's four halts. -/
  | halted (outcome : RunOutcome)
  /-- The model fault OutOfRange: `left` has HALT = 5 and is no final state of the source's (R300, R343; log 5). -/
  | modelFault (left : RunOutcome)
  /-- A step that is refused; no step is. -/
  | refused (r : Refusal)
  /-- The bound is used up and HALT is still 0: no outcome, and no halt. -/
  | outOfFuel
  deriving DecidableEq, Repr

/-- What the host reads of a state (R343, R344). -/
def State.report (s : State) : RunOutcome where
  halt := s.halt
  pc := s.pc
  x := s.x
  mem := s.mem

/-- A run from `s` under a bound of `fuel` cycles: it ends at the first cycle after which HALT is not 0 (R343). -/
def runEnd : Nat → State → RunEnd
  | 0, _ => .outOfFuel
  | fuel + 1, s =>
    match step s with
    | .next t => if t.halt = 0#3 then runEnd fuel t else .halted t.report
    | .fault (.outOfRange final) => .modelFault final.report
    | .refused r => .refused r

/-- The run of an image: the cycles from its launch state (R342, R343; log 10). -/
def runImage (fuel : Nat) (p : Params) (image : List Word) (regs : Vector Word 32) : RunEnd :=
  runEnd fuel (State.launch p image regs)

end Sys2Proof.Machine
end

