-- ==== Sys2Proof/Safety.lean ====
section
/-! DEFINITION. What a legal state is and what counts as a run whose end the spec defines: the terms the statements use. -/

namespace Sys2Proof.Machine

/-- The states the spec's core can be in once a legal PC0 has been chosen: memory in its canonical form, the PC a
multiple of 4 (R26), HALT one of its six values (R33), and an OPCODE_MAP that rule R8 admits. -/
structure State.Legal (s : State) : Prop where
  memory    : Memory.wf s.mem = true
  pcAligned : lowBits s.pc = 0#2
  haltCode  : s.halt.toNat ≤ 5
  opcodeMap : s.params.opcodeMap.Legal

/-- `k` cycles lead from `s` to `t`, whether `t` is halted or not, clear of the model fault OutOfRange, whose final state
no claim may take as the chip's (R300). Where a run ends and what its outcome is say `runEnd` (Machine/Run.lean, R343). -/
def RunsTo (k : Nat) (s t : State) : Prop :=
  Host.Core.run Sys2Proof.core k s = .next t

/-- Within `k` cycles from `s` the model fault OutOfRange stops the core, with `final` left to read (R300). -/
def RunsIntoModelFault (k : Nat) (s final : State) : Prop :=
  Host.Core.run Sys2Proof.core k s = .fault (.outOfRange final)

end Sys2Proof.Machine
end

