-- ==== Sys2Proof/Certificates/Slice0/Obligations.lean ====
section
/-! DEFINITION. The statements for the provers. Each docstring names the rule or the sections of spec/ it formalises, and
says so where a clause rests on a decision the spec marks as its own (D1 to D24) or on the model's choice (log n). -/

open Sys2Proof Sys2Proof.Machine Sys2Proof.Machine.Datapath

/-! ## Encoding -/

/-- Decoding the word of an instruction gives the instruction back, for every instruction, every value of its fields and
every OPCODE_MAP that rule R8 admits. The fields' positions are rule R61's (decision D2, log 4), and that an instruction
keeps the unused ones is the model's choice (log 9). -/
def Obligations.DecodeOfEncode : Prop :=
  ∀ m : OpcodeMap, m.Legal → ∀ i : Instr, decode m (encode m i) = .ok i

/-- Every word that decodes is the word of the instruction it decodes to. That an instruction keeps every bit of its
word, the unused ones too, is the model's own choice (log 9): the spec makes words that differ in unused bits one
instruction (R70), and its encoder writes 0 there (R73, decision D23). The fields' positions are rule R61's (decision
D2, log 4). -/
def Obligations.EncodeOfDecode : Prop :=
  ∀ (m : OpcodeMap) (w : Word) (i : Instr), decode m w = .ok i → encode m i = w

/-- Words written out field by field, one or two for each family, under the spec's default OPCODE_MAP and field
positions (decisions D1 and D2, log 4); that the first keeps its w[10:6] is the model's choice (log 9). -/
def Obligations.SampleWordsDecode : Prop :=
  decode OpcodeMap.default 0b00000000001000100001111111100000#32 = .ok (.add 1#5 2#5 3#5 31#5) ∧
  decode OpcodeMap.default 0b00000000001000100001100000101011#32 = .ok (.sltu 1#5 2#5 3#5 0#5) ∧
  decode OpcodeMap.default 0b00001011111111111111111111111111#32 = .ok (.j 0x3FFFFFF#26) ∧
  decode OpcodeMap.default 0b00010000001000101111111111111101#32 = .ok (.beq 1#5 2#5 0xFFFD#16) ∧
  decode OpcodeMap.default 0b00111100011000101000000000000000#32 = .ok (.lui 3#5 2#5 0x8000#16) ∧
  decode OpcodeMap.default 0b10001100001000100000000000001001#32 = .ok (.lw 1#5 2#5 9#16) ∧
  decode OpcodeMap.default 0b10101100000000100000000100000010#32 = .ok (.sw 0#5 2#5 0x102#16) ∧
  decode OpcodeMap.default 0b00000000000000000000000000000000#32 = .error .unrecognizedFunction ∧
  decode OpcodeMap.default 0b11111100000000000000000000100000#32 = .error .unsupportedOpcode

/-- R67, R116: a fetched word whose opcode is outside OPCODE_MAP halts with UnsupportedOpcode in the ControlUnit,
whatever its other bits, and nothing but HALT changes. The code 2 is rule R300's (decision D12). -/
def Obligations.UnsupportedOpcodeHalts : Prop :=
  ∀ (s : State) (w : Word), s.halt = 0#3 → memFetch s s.pc = .ok w →
    (∀ c : OpClass, s.params.opcodeMap.opcode c ≠ w.extractLsb' 26 6) →
    controlUnit s.params (w.extractLsb' 26 6) = .error .unsupportedOpcode ∧
    step s = .next { s with halt := 2#3 }

/-- R206: a fetched R-type word with a funct outside the six halts with UnrecognizedFunction in the ALUControlResolver:
registers, memory and PC unchanged, HALT = 3. -/
def Obligations.UnrecognizedFunctionHalts : Prop :=
  ∀ (s : State) (w : Word), s.halt = 0#3 → memFetch s s.pc = .ok w →
    w.extractLsb' 26 6 = s.params.opcodeMap.rType →
    w.extractLsb' 0 6 ∉ [0x20#6, 0x22#6, 0x24#6, 0x25#6, 0x2A#6, 0x2B#6] →
    aluControlResolver (controlRow s.params .rType).aluOp (w.extractLsb' 0 6) = .error .unrecognizedFunction ∧
    step s = .next { s with halt := 3#3 }

/-- R70: a field an instruction does not use changes nothing. Two words that differ only in such fields have the same
effect: w[10:6] of an R-type word, r1 of lui, and, under IMM_REGDST = 0, every field but the opcode of addi, slti, sltiu
and lui (decisions D2, D4 and D23; log 4, log 9). -/
def Obligations.UnusedFieldsHaveNoEffect : Prop :=
  ∀ (m : OpcodeMap) (w w' : Word) (s : State), m.Legal → w.extractLsb' 26 6 = w'.extractLsb' 26 6 →
    (w.extractLsb' 26 6 = m.rType → w.extractLsb' 11 15 = w'.extractLsb' 11 15 →
      w.extractLsb' 0 6 = w'.extractLsb' 0 6 → ∀ i i', decode m w = .ok i → decode m w' = .ok i' →
      exec i s = exec i' s) ∧
    (w.extractLsb' 26 6 = m.loadUpperImmediate → w.extractLsb' 0 21 = w'.extractLsb' 0 21 →
      ∀ i i', decode m w = .ok i → decode m w' = .ok i' → exec i s = exec i' s) ∧
    (s.params.immRegDst = false →
      w.extractLsb' 26 6 ∈ [m.addImmediate, m.setLessThanImmediate, m.setLessThanImmediateUnsigned,
        m.loadUpperImmediate] →
      ∀ i i', decode m w = .ok i → decode m w' = .ok i' → exec i s = exec i' s)

/-! ## The cycle -/

/-- R131: a running step whose PC is aligned and backed runs the instruction that the word there decodes to, and adds
nothing around it. -/
def Obligations.StepRunsDecodedInstruction : Prop :=
  ∀ (s : State) (i : Instr), s.halt = 0#3 → s.pc.toNat % 4 = 0 → s.pc.toNat < 65536 →
    decode s.params.opcodeMap (Memory.readWord s.mem (s.pc.toNat / 4)) = .ok i → step s = exec i s

/-- R43, R112: instruction fetch, for every address; and the cycle in which the fetch at the PC halts. The range check
is decision D6, and the model answers it with a fault that holds the halted state (log 5). -/
def Obligations.FetchChecks : Prop :=
  (∀ (s : State) (a : Word),
    (a.toNat % 4 ≠ 0 → memFetch s a = .error .misalignedFetch) ∧
    (a.toNat % 4 = 0 → 16384 ≤ a.toNat / 4 → memFetch s a = .error .outOfRange) ∧
    (a.toNat % 4 = 0 → a.toNat / 4 < 16384 → memFetch s a = .ok (Memory.readWord s.mem (a.toNat / 4)))) ∧
  (∀ s : State, s.halt = 0#3 →
    (s.pc.toNat % 4 ≠ 0 → step s = .next { s with halt := 1#3 }) ∧
    (s.pc.toNat % 4 = 0 → 16384 ≤ s.pc.toNat / 4 → step s = .fault (.outOfRange { s with halt := 5#3 })))

/-- A word placed for the next cycle is the one the next step runs, from every state with a canonical memory. The
model's own operation (log 7). -/
def Obligations.PlacedWordRunsNext : Prop :=
  ∀ (s : State) (w : Word) (i : Instr), Memory.wf s.mem = true → decode s.params.opcodeMap w = .ok i →
    step (s.withFetchWord 32 w.toNat) = exec i (s.withFetchWord 32 w.toNat)

/-- R131: one step, which decodes to an instruction and runs its meaning, is the cycle that the units of the datapath
make of the same state. -/
def Obligations.StepIsDatapathCycle : Prop :=
  ∀ s : State, step s = cycle s

/-- R134: once HALT is not 0 no cycle changes any state, however many follow (decision D13). -/
def Obligations.HaltedCoreIsFrozen : Prop :=
  ∀ (s : State) (k : Nat), s.halt ≠ 0#3 → step s = .next s ∧ RunsTo k s s

/-- R132, R133, R303: a cycle that ends in a halt changes HALT alone, to one of the codes 1 to 4; and a cycle that ends
in the model fault leaves the state before it with HALT = 5 (decisions D6, D10, D12). -/
def Obligations.HaltingCycleChangesOnlyHalt : Prop :=
  (∀ s t : State, s.halt = 0#3 → step s = .next t → t.halt ≠ 0#3 →
    t = { s with halt := t.halt } ∧ t.halt ∈ [1#3, 2#3, 3#3, 4#3]) ∧
  (∀ (s : State) (f : Fault), step s = .fault f → s.halt = 0#3 ∧ f = .outOfRange { s with halt := 5#3 })

/-- R300, R302: for a running cycle, each halt code appears exactly for its cause, in the priority of rule R302: a fetch
at a misaligned PC, a word with an unsupported opcode, an R-type word with another funct, a data access that is not
permitted (decisions D6 and D12). -/
def Obligations.HaltCodesHaveTheirCauses : Prop :=
  ∀ s t : State, s.halt = 0#3 → step s = .next t →
    (t.halt = 1#3 ↔ s.pc.toNat % 4 ≠ 0) ∧
    (t.halt = 2#3 ↔ s.pc.toNat % 4 = 0 ∧
      decode s.params.opcodeMap (Memory.readWord s.mem (idx s.pc)) = .error .unsupportedOpcode) ∧
    (t.halt = 3#3 ↔ s.pc.toNat % 4 = 0 ∧
      decode s.params.opcodeMap (Memory.readWord s.mem (idx s.pc)) = .error .unrecognizedFunction) ∧
    (t.halt = 4#3 ↔ s.pc.toNat % 4 = 0 ∧
      ∃ i a, decode s.params.opcodeMap (Memory.readWord s.mem (idx s.pc)) = .ok i ∧ dataAddress s i = some a ∧
        dataOk s.params.memAlignPolarity a = false)

/-- R42, R302: a step is never refused, and it ends in the model fault exactly when a running core fetches at an aligned
PC outside memory, or makes a permitted data access outside memory (decision D6). -/
def Obligations.StepFaultsOnlyOutOfRange : Prop :=
  ∀ s : State,
    ((∃ t, step s = .next t) ∨ step s = .fault (.outOfRange { s with halt := 5#3 })) ∧
    (step s = .fault (.outOfRange { s with halt := 5#3 }) ↔ s.halt = 0#3 ∧ s.pc.toNat % 4 = 0 ∧
      (65536 ≤ s.pc.toNat ∨
        (s.pc.toNat < 65536 ∧ ∃ i a, decode s.params.opcodeMap (Memory.readWord s.mem (idx s.pc)) = .ok i ∧
          dataAddress s i = some a ∧ dataOk s.params.memAlignPolarity a = true ∧ 65536 ≤ a.toNat)))

/-! ## Invariants -/

/-- A step from a legal state ends in a legal state, and the parameters never change: memory stays canonical, the PC a
multiple of 4 (R26), HALT one of its six values (R33), OPCODE_MAP one that rule R8 admits. -/
def Obligations.StepKeepsLegality : Prop :=
  ∀ s t : State, s.Legal → step s = .next t → t.Legal ∧ t.params = s.params

/-- The state after reset is legal (the parameters' defaults and the empty memory are log 2 and log 4). -/
def Obligations.ResetIsLegal : Prop :=
  State.reset.Legal

/-- R56, R342: the launch state of every image of up to 16384 words, every preset of the registers and every choice of
the parameters with a legal OPCODE_MAP and an aligned PC0 is legal, running, at PC0, and its memory is the image, word
for word (decisions D8 and D18; log 10). -/
def Obligations.LaunchHoldsTheImage : Prop :=
  ∀ (p : Params) (image : List Word) (regs : Vector Word 32), p.opcodeMap.Legal → p.pc0.toNat % 4 = 0 →
    image.length ≤ 16384 →
    (State.launch p image regs).Legal ∧ (State.launch p image regs).halt = 0#3 ∧
    (State.launch p image regs).pc = p.pc0 ∧ (State.launch p image regs).x = regs ∧
    ∀ (k : Nat) (hk : k < image.length), Memory.readWord (State.launch p image regs).mem k = image[k]

/-- R300: any number of cycles from a legal state with HALT at most 4 either lead to a legal state with HALT at most 4
or are stopped by the model fault; they are never refused (decision D6). -/
def Obligations.RunEndsLegalOrInModelFault : Prop :=
  ∀ (k : Nat) (s : State), s.Legal → s.halt.toNat ≤ 4 →
    (∃ t, RunsTo k s t ∧ t.Legal ∧ t.halt.toNat ≤ 4) ∨
    (∃ final, RunsIntoModelFault k s final ∧ final.Legal ∧ final.halt = 5#3)

/-- R26: once the PC is a multiple of 4 it stays one, so no later cycle halts with MisalignedFetch (a derivation the
spec marks as its own: "MisalignedFetch can happen only in the first cycle"). -/
def Obligations.MisalignedFetchOnlyInFirstCycle : Prop :=
  ∀ (k : Nat) (s t : State), s.pc.toNat % 4 = 0 → s.halt ≠ 1#3 → RunsTo k s t →
    t.pc.toNat % 4 = 0 ∧ t.halt ≠ 1#3

/-! ## R-type instructions -/

/-- R200 ADD: its encoding, its ALU operation, and its effect, for every form, register 0 and equal registers included.
The positions of r1, r2 and r3 are decision D2 (log 4), and that the instruction keeps w[10:6] is the model's choice
(log 9). -/
def Obligations.AddResult : Prop :=
  (∀ (m : OpcodeMap) (w : Word), m.Legal → w.extractLsb' 26 6 = m.rType → w.extractLsb' 0 6 = 0x20#6 →
    decode m w = .ok (.add (w.extractLsb' 21 5) (w.extractLsb' 16 5) (w.extractLsb' 11 5) (w.extractLsb' 6 5))) ∧
  aluControlResolver 7#3 0x20#6 = .ok 0#3 ∧
  (∀ (r1 r2 r3 : RegIdx) (ignored : BitVec 5) (s : State),
    exec (.add r1 r2 r3 ignored) s =
      .next { writeReg r3 (readReg s r1 + readReg s r2) s with pc := s.pc + 4#32 })

/-- R201 SUB: its encoding, its ALU operation, and its effect, for every form. The positions of r1, r2 and r3 are
decision D2 (log 4), and that the instruction keeps w[10:6] is the model's choice (log 9). -/
def Obligations.SubResult : Prop :=
  (∀ (m : OpcodeMap) (w : Word), m.Legal → w.extractLsb' 26 6 = m.rType → w.extractLsb' 0 6 = 0x22#6 →
    decode m w = .ok (.sub (w.extractLsb' 21 5) (w.extractLsb' 16 5) (w.extractLsb' 11 5) (w.extractLsb' 6 5))) ∧
  aluControlResolver 7#3 0x22#6 = .ok 1#3 ∧
  (∀ (r1 r2 r3 : RegIdx) (ignored : BitVec 5) (s : State),
    exec (.sub r1 r2 r3 ignored) s =
      .next { writeReg r3 (readReg s r1 - readReg s r2) s with pc := s.pc + 4#32 })

/-- R202 AND: its encoding, its ALU operation, and its effect, for every form. The positions of r1, r2 and r3 are
decision D2 (log 4), and that the instruction keeps w[10:6] is the model's choice (log 9). -/
def Obligations.AndResult : Prop :=
  (∀ (m : OpcodeMap) (w : Word), m.Legal → w.extractLsb' 26 6 = m.rType → w.extractLsb' 0 6 = 0x24#6 →
    decode m w = .ok (.and (w.extractLsb' 21 5) (w.extractLsb' 16 5) (w.extractLsb' 11 5) (w.extractLsb' 6 5))) ∧
  aluControlResolver 7#3 0x24#6 = .ok 4#3 ∧
  (∀ (r1 r2 r3 : RegIdx) (ignored : BitVec 5) (s : State),
    exec (.and r1 r2 r3 ignored) s =
      .next { writeReg r3 (readReg s r1 &&& readReg s r2) s with pc := s.pc + 4#32 })

/-- R203 OR: its encoding, its ALU operation, and its effect, for every form. The positions of r1, r2 and r3 are
decision D2 (log 4), and that the instruction keeps w[10:6] is the model's choice (log 9). -/
def Obligations.OrResult : Prop :=
  (∀ (m : OpcodeMap) (w : Word), m.Legal → w.extractLsb' 26 6 = m.rType → w.extractLsb' 0 6 = 0x25#6 →
    decode m w = .ok (.or (w.extractLsb' 21 5) (w.extractLsb' 16 5) (w.extractLsb' 11 5) (w.extractLsb' 6 5))) ∧
  aluControlResolver 7#3 0x25#6 = .ok 5#3 ∧
  (∀ (r1 r2 r3 : RegIdx) (ignored : BitVec 5) (s : State),
    exec (.or r1 r2 r3 ignored) s =
      .next { writeReg r3 (readReg s r1 ||| readReg s r2) s with pc := s.pc + 4#32 })

/-- R204 SLT: the low 16 bits of each source alone, read as signed 16-bit numbers (decision D15, log 11). The positions
of r1, r2 and r3 are decision D2 (log 4), and that the instruction keeps w[10:6] is the model's choice (log 9). -/
def Obligations.SltResult : Prop :=
  (∀ (m : OpcodeMap) (w : Word), m.Legal → w.extractLsb' 26 6 = m.rType → w.extractLsb' 0 6 = 0x2A#6 →
    decode m w = .ok (.slt (w.extractLsb' 21 5) (w.extractLsb' 16 5) (w.extractLsb' 11 5) (w.extractLsb' 6 5))) ∧
  aluControlResolver 7#3 0x2A#6 = .ok 2#3 ∧
  (∀ (r1 r2 r3 : RegIdx) (ignored : BitVec 5) (s : State),
    exec (.slt r1 r2 r3 ignored) s =
      .next { writeReg r3
                (if ((readReg s r1).extractLsb' 0 16).toInt < ((readReg s r2).extractLsb' 0 16).toInt
                  then 1#32 else 0#32) s with
              pc := s.pc + 4#32 })

/-- R205 SLTU: all 32 bits, unsigned. The positions of r1, r2 and r3 are decision D2 (log 4), and that the instruction
keeps w[10:6] is the model's choice (log 9). -/
def Obligations.SltuResult : Prop :=
  (∀ (m : OpcodeMap) (w : Word), m.Legal → w.extractLsb' 26 6 = m.rType → w.extractLsb' 0 6 = 0x2B#6 →
    decode m w = .ok (.sltu (w.extractLsb' 21 5) (w.extractLsb' 16 5) (w.extractLsb' 11 5) (w.extractLsb' 6 5))) ∧
  aluControlResolver 7#3 0x2B#6 = .ok 3#3 ∧
  (∀ (r1 r2 r3 : RegIdx) (ignored : BitVec 5) (s : State),
    exec (.sltu r1 r2 r3 ignored) s =
      .next { writeReg r3 (if (readReg s r1).toNat < (readReg s r2).toNat then 1#32 else 0#32) s with
              pc := s.pc + 4#32 })

/-! ## Jump and branch-equal -/

/-- R220 J: its encoding, its control row, and the PC it goes to. Of the row, Branch, MemRead, MemWrite and ALUOp 0 are
decision D3, and MemtoReg and ALUSrc 0 are don't-care cells (log 12). -/
def Obligations.JResult : Prop :=
  (∀ (m : OpcodeMap) (w : Word), m.Legal → w.extractLsb' 26 6 = m.jump →
    decode m w = .ok (.j (w.extractLsb' 0 26))) ∧
  (∀ p : Params, controlRow p .jump =
    { regDst := 2#2, jump := 1#1, branch := 0#1, memRead := 0#1, memtoReg := 0#1, aluOp := 0#3, memWrite := 0#1,
      aluSrc := 0#1, regWrite := 0#1 }) ∧
  (∀ (jsec : BitVec 26) (s : State),
    exec (.j jsec) s =
      .next { s with pc := (jsec.setWidth 32 <<< 2) ||| ((s.pc + 4#32) &&& 0xF0000000#32) })

/-- R221 BEQ: its encoding, its control row, and the PC it goes to: taken when the subtraction of the two registers, on
all 32 bits, gives 0. (That this is their equality is the last clause of rule R103, in `AluOperations`.) Of the row,
Jump, MemRead, MemWrite and ALUSrc 0 are decision D3, and MemtoReg 0 is a don't-care cell; that the target wraps is
decision D16 (log 12); the positions of r1 and r2 are decision D2 (log 4). -/
def Obligations.BeqResult : Prop :=
  (∀ (m : OpcodeMap) (w : Word), m.Legal → w.extractLsb' 26 6 = m.branchEqual →
    decode m w = .ok (.beq (w.extractLsb' 21 5) (w.extractLsb' 16 5) (w.extractLsb' 0 16))) ∧
  (∀ p : Params, controlRow p .branchEqual =
    { regDst := 2#2, jump := 0#1, branch := 1#1, memRead := 0#1, memtoReg := 0#1, aluOp := 1#3, memWrite := 0#1,
      aluSrc := 0#1, regWrite := 0#1 }) ∧
  (∀ (r1 r2 : RegIdx) (offset : BitVec 16) (s : State),
    exec (.beq r1 r2 offset) s =
      .next { s with pc := if readReg s r1 - readReg s r2 = 0#32
                then s.pc + 4#32 + (offset.signExtend 32 <<< 2) else s.pc + 4#32 })

/-! ## ALU-immediate instructions -/

/-- R231 ADDI, with the write-back of rule R230 under both values of IMM_REGDST (decisions D3 and D4). The positions of
r1 and r2 are decision D2 (log 4). -/
def Obligations.AddiResult : Prop :=
  (∀ (m : OpcodeMap) (w : Word), m.Legal → w.extractLsb' 26 6 = m.addImmediate →
    decode m w = .ok (.addi (w.extractLsb' 21 5) (w.extractLsb' 16 5) (w.extractLsb' 0 16))) ∧
  (∀ p : Params, controlRow p .addImmediate =
    { regDst := if p.immRegDst then 1#2 else 0#2, jump := 0#1, branch := 0#1, memRead := 0#1, memtoReg := 0#1,
      aluOp := 0#3, memWrite := 0#1, aluSrc := 1#1, regWrite := 1#1 }) ∧
  (∀ (r1 r2 : RegIdx) (offset : BitVec 16) (s : State),
    (s.params.immRegDst = false → exec (.addi r1 r2 offset) s = .next { s with pc := s.pc + 4#32 }) ∧
    (s.params.immRegDst = true → exec (.addi r1 r2 offset) s =
      .next { writeReg (offset.extractLsb' 11 5) (readReg s r1 + offset.signExtend 32) s with pc := s.pc + 4#32 }))

/-- R232 SLTI: x[r1][15:0] against the immediate, both signed 16-bit numbers (a derivation the spec marks as its own),
with the write-back of rule R230 (decision D4), and the narrow comparison of decision D15 (log 11). The row's cells that
R115 marks D are decision D3. The positions of r1 and r2 are decision D2 (log 4). -/
def Obligations.SltiResult : Prop :=
  (∀ (m : OpcodeMap) (w : Word), m.Legal → w.extractLsb' 26 6 = m.setLessThanImmediate →
    decode m w = .ok (.slti (w.extractLsb' 21 5) (w.extractLsb' 16 5) (w.extractLsb' 0 16))) ∧
  (∀ p : Params, controlRow p .setLessThanImmediate =
    { regDst := if p.immRegDst then 1#2 else 0#2, jump := 0#1, branch := 0#1, memRead := 0#1, memtoReg := 0#1,
      aluOp := 2#3, memWrite := 0#1, aluSrc := 1#1, regWrite := 1#1 }) ∧
  (∀ (r1 r2 : RegIdx) (offset : BitVec 16) (s : State),
    (s.params.immRegDst = false → exec (.slti r1 r2 offset) s = .next { s with pc := s.pc + 4#32 }) ∧
    (s.params.immRegDst = true → exec (.slti r1 r2 offset) s =
      .next { writeReg (offset.extractLsb' 11 5)
                (if ((readReg s r1).extractLsb' 0 16).toInt < offset.toInt then 1#32 else 0#32) s with
              pc := s.pc + 4#32 }))

/-- R233 SLTIU: the sign-extended immediate, compared unsigned, with the write-back of rule R230 (decision D4). The
row's cells that R115 marks D are decision D3. The positions of r1 and r2 are decision D2 (log 4). -/
def Obligations.SltiuResult : Prop :=
  (∀ (m : OpcodeMap) (w : Word), m.Legal → w.extractLsb' 26 6 = m.setLessThanImmediateUnsigned →
    decode m w = .ok (.sltiu (w.extractLsb' 21 5) (w.extractLsb' 16 5) (w.extractLsb' 0 16))) ∧
  (∀ p : Params, controlRow p .setLessThanImmediateUnsigned =
    { regDst := if p.immRegDst then 1#2 else 0#2, jump := 0#1, branch := 0#1, memRead := 0#1, memtoReg := 0#1,
      aluOp := 3#3, memWrite := 0#1, aluSrc := 1#1, regWrite := 1#1 }) ∧
  (∀ (r1 r2 : RegIdx) (offset : BitVec 16) (s : State),
    (s.params.immRegDst = false → exec (.sltiu r1 r2 offset) s = .next { s with pc := s.pc + 4#32 }) ∧
    (s.params.immRegDst = true → exec (.sltiu r1 r2 offset) s =
      .next { writeReg (offset.extractLsb' 11 5)
                (if (readReg s r1).toNat < (offset.signExtend 32).toNat then 1#32 else 0#32) s with
              pc := s.pc + 4#32 }))

/-- R234 LUI: the immediate in bits 31:16 over zeros, with the write-back of rule R230 (decision D4). The row's cells
that R115 marks D are decision D3. The positions of r1 and r2 are decision D2 (log 4). -/
def Obligations.LuiResult : Prop :=
  (∀ (m : OpcodeMap) (w : Word), m.Legal → w.extractLsb' 26 6 = m.loadUpperImmediate →
    decode m w = .ok (.lui (w.extractLsb' 21 5) (w.extractLsb' 16 5) (w.extractLsb' 0 16))) ∧
  (∀ p : Params, controlRow p .loadUpperImmediate =
    { regDst := if p.immRegDst then 1#2 else 0#2, jump := 0#1, branch := 0#1, memRead := 0#1, memtoReg := 0#1,
      aluOp := 6#3, memWrite := 0#1, aluSrc := 1#1, regWrite := 1#1 }) ∧
  (∀ (r1 r2 : RegIdx) (offset : BitVec 16) (s : State),
    (s.params.immRegDst = false → exec (.lui r1 r2 offset) s = .next { s with pc := s.pc + 4#32 }) ∧
    (s.params.immRegDst = true → exec (.lui r1 r2 offset) s =
      .next { writeReg (offset.extractLsb' 11 5) (offset ++ 0#16) s with pc := s.pc + 4#32 }))

/-! ## Load word and store word -/

/-- R250 LW: its encoding, its control row, the load where the access is permitted and backed, and its two halts, the
legality check first. That OutOfRange is a fault is decision D6 (log 5). Of the row, the cells R115 marks D are
decision D3; the polarities are D5, and the positions of r1 and r2 D2 (log 4). -/
def Obligations.LwResult : Prop :=
  (∀ (m : OpcodeMap) (w : Word), m.Legal → w.extractLsb' 26 6 = m.loadWord →
    decode m w = .ok (.lw (w.extractLsb' 21 5) (w.extractLsb' 16 5) (w.extractLsb' 0 16))) ∧
  (∀ p : Params, controlRow p .loadWord =
    { regDst := 0#2, jump := 0#1, branch := 0#1, memRead := 1#1, memtoReg := 1#1, aluOp := 0#3, memWrite := 0#1,
      aluSrc := 1#1, regWrite := 1#1 }) ∧
  (∀ (r1 r2 : RegIdx) (offset : BitVec 16) (s : State) (a : Word), a = readReg s r1 + offset.signExtend 32 →
    (dataOk s.params.memAlignPolarity a = true → a.toNat / 4 < 16384 →
      exec (.lw r1 r2 offset) s =
        .next { writeReg r2 (Memory.readWord s.mem (a.toNat / 4)) s with pc := s.pc + 4#32 }) ∧
    (dataOk s.params.memAlignPolarity a = false → exec (.lw r1 r2 offset) s = .next { s with halt := 4#3 }) ∧
    (dataOk s.params.memAlignPolarity a = true → 16384 ≤ a.toNat / 4 →
      exec (.lw r1 r2 offset) s = .fault (.outOfRange { s with halt := 5#3 })))

/-- R251 SW: its encoding, its control row, the store where the access is permitted and backed, and its two halts, the
legality check first. That OutOfRange is a fault is decision D6 (log 5). Of the row, the cells R115 marks D are
decision D3; the polarities are D5, and the positions of r1 and r2 D2 (log 4). -/
def Obligations.SwResult : Prop :=
  (∀ (m : OpcodeMap) (w : Word), m.Legal → w.extractLsb' 26 6 = m.storeWord →
    decode m w = .ok (.sw (w.extractLsb' 21 5) (w.extractLsb' 16 5) (w.extractLsb' 0 16))) ∧
  (∀ p : Params, controlRow p .storeWord =
    { regDst := 2#2, jump := 0#1, branch := 0#1, memRead := 0#1, memtoReg := 0#1, aluOp := 0#3, memWrite := 1#1,
      aluSrc := 1#1, regWrite := 0#1 }) ∧
  (∀ (r1 r2 : RegIdx) (offset : BitVec 16) (s : State) (a : Word), a = readReg s r1 + offset.signExtend 32 →
    (dataOk s.params.memAlignPolarity a = true → a.toNat / 4 < 16384 →
      exec (.sw r1 r2 offset) s =
        .next { s with mem := Memory.writeWord s.mem (a.toNat / 4) (readReg s r2), pc := s.pc + 4#32 }) ∧
    (dataOk s.params.memAlignPolarity a = false → exec (.sw r1 r2 offset) s = .next { s with halt := 4#3 }) ∧
    (dataOk s.params.memAlignPolarity a = true → 16384 ≤ a.toNat / 4 →
      exec (.sw r1 r2 offset) s = .fault (.outOfRange { s with halt := 5#3 })))

/-! ## Frames -/

/-- The frame of the six R-type instructions: only x[r3] and the PC change. -/
def Obligations.RTypeFrame : Prop :=
  ∀ (i : Instr) (r1 r2 r3 : RegIdx) (g : BitVec 5) (s t : State),
    i ∈ [.add r1 r2 r3 g, .sub r1 r2 r3 g, .and r1 r2 r3 g, .or r1 r2 r3 g, .slt r1 r2 r3 g, .sltu r1 r2 r3 g] →
    exec i s = .next t →
    (∀ r, r ≠ r3 → readReg t r = readReg s r) ∧ t.halt = s.halt ∧ t.params = s.params ∧
    ∀ a, Memory.getByte t.mem a = Memory.getByte s.mem a

/-- The frame of j and beq: only the PC changes. -/
def Obligations.ControlTransferFrame : Prop :=
  ∀ (i : Instr) (jsec : BitVec 26) (r1 r2 : RegIdx) (o : BitVec 16) (s t : State),
    i ∈ [.j jsec, .beq r1 r2 o] → exec i s = .next t →
    (∀ r, readReg t r = readReg s r) ∧ t.halt = s.halt ∧ t.params = s.params ∧
    ∀ a, Memory.getByte t.mem a = Memory.getByte s.mem a

/-- The frame of addi, slti, sltiu and lui: only the PC changes, and under IMM_REGDST = 1 also x[offset[15:11]]; never
x[r2] for being r2 (R230, conflict C3). -/
def Obligations.ImmediateFrame : Prop :=
  ∀ (i : Instr) (r1 r2 : RegIdx) (o : BitVec 16) (s t : State),
    i ∈ [.addi r1 r2 o, .slti r1 r2 o, .sltiu r1 r2 o, .lui r1 r2 o] → exec i s = .next t →
    (∀ r, s.params.immRegDst = false ∨ r ≠ o.extractLsb' 11 5 → readReg t r = readReg s r) ∧
    t.halt = s.halt ∧ t.params = s.params ∧ ∀ a, Memory.getByte t.mem a = Memory.getByte s.mem a

/-- The frame of lw: only x[r2] and the PC change; where the access is not permitted, HALT alone. -/
def Obligations.LoadFrame : Prop :=
  ∀ (r1 r2 : RegIdx) (o : BitVec 16) (s t : State), exec (.lw r1 r2 o) s = .next t →
    (∀ r, r ≠ r2 → readReg t r = readReg s r) ∧ t.params = s.params ∧
    (∀ a, Memory.getByte t.mem a = Memory.getByte s.mem a) ∧
    (dataOk s.params.memAlignPolarity (effectiveAddress s r1 o) = true → t.halt = s.halt) ∧
    (dataOk s.params.memAlignPolarity (effectiveAddress s r1 o) = false →
      (∀ r, readReg t r = readReg s r) ∧ t.pc = s.pc)

/-- The frame of sw: only the four bytes of the word at its address and the PC change; where the access is not
permitted, HALT alone. -/
def Obligations.StoreFrame : Prop :=
  ∀ (r1 r2 : RegIdx) (o : BitVec 16) (s t : State), exec (.sw r1 r2 o) s = .next t →
    (∀ r, readReg t r = readReg s r) ∧ t.params = s.params ∧
    (∀ a, a < 4 * idx (effectiveAddress s r1 o) ∨ 4 * idx (effectiveAddress s r1 o) + 4 ≤ a →
      Memory.getByte t.mem a = Memory.getByte s.mem a) ∧
    (dataOk s.params.memAlignPolarity (effectiveAddress s r1 o) = true → t.halt = s.halt) ∧
    (dataOk s.params.memAlignPolarity (effectiveAddress s r1 o) = false →
      (∀ a, Memory.getByte t.mem a = Memory.getByte s.mem a) ∧ t.pc = s.pc)

/-! ## Whole-machine rules -/

/-- R22, R23: whatever a cycle does, a register changes only if it is the destination of the instruction the cycle ran
(which register that is, is a derivation the spec marks as its own). -/
def Obligations.OnlyTheDestinationRegisterChanges : Prop :=
  ∀ (s t : State) (r : RegIdx), step s = .next t → readReg t r ≠ readReg s r →
    s.halt = 0#3 ∧ t.halt = 0#3 ∧
    ∃ i, decode s.params.opcodeMap (Memory.readWord s.mem (idx s.pc)) = .ok i ∧
      destination s.params i = some r

/-- R34, R46, R49: whatever a cycle does, a byte of memory changes only if the cycle ran a store word and the byte lies
in the word it names. -/
def Obligations.OnlyStoreWordChangesMemory : Prop :=
  ∀ (s t : State) (a : Nat), step s = .next t → Memory.getByte t.mem a ≠ Memory.getByte s.mem a →
    ∃ r1 r2 o, decode s.params.opcodeMap (Memory.readWord s.mem (idx s.pc)) = .ok (.sw r1 r2 o) ∧
      a / 4 = idx (effectiveAddress s r1 o) ∧ a < 65536

/-- R52: a load returns the value of the store before it to the same word, whichever of the word's byte addresses the
two use. -/
def Obligations.LoadAfterStore : Prop :=
  ∀ (s t : State) (r1 r2 r1' r2' : RegIdx) (o o' : BitVec 16), Memory.wf s.mem = true →
    exec (.sw r1 r2 o) s = .next t → dataOk s.params.memAlignPolarity (effectiveAddress s r1 o) = true →
    idx (effectiveAddress t r1' o') = idx (effectiveAddress s r1 o) →
    dataOk t.params.memAlignPolarity (effectiveAddress t r1' o') = true →
    exec (.lw r1' r2' o') t = .next { writeReg r2' (readReg s r2) t with pc := t.pc + 4#32 }

/-- R54, R347: the cycle after a store into the word at its PC runs the stored word, with nothing between (a derivation
the spec marks as its own). -/
def Obligations.StoreIsSeenByNextFetch : Prop :=
  ∀ (s t : State) (r1 r2 : RegIdx) (o : BitVec 16) (i : Instr), Memory.wf s.mem = true → s.halt = 0#3 →
    exec (.sw r1 r2 o) s = .next t → dataOk s.params.memAlignPolarity (effectiveAddress s r1 o) = true →
    t.pc.toNat % 4 = 0 → idx t.pc = idx (effectiveAddress s r1 o) →
    decode s.params.opcodeMap (readReg s r2) = .ok i → step t = exec i t

/-- R21: register 0 is an ordinary register: a write to it is kept, and a read of it gives what was written. -/
def Obligations.RegisterZeroIsOrdinary : Prop :=
  (∀ (r1 r2 : RegIdx) (g : BitVec 5) (s : State), ∃ t, exec (.add r1 r2 0#5 g) s = .next t ∧
    readReg t 0#5 = readReg s r1 + readReg s r2 ∧
    ∀ (r : RegIdx) (g' : BitVec 5), ∃ u, exec (.or 0#5 0#5 r g') t = .next u ∧
      readReg u r = readReg s r1 + readReg s r2)

/-- R24, R340: the reset input sets every register to 0, the PC to PC0 and HALT to 0, and leaves memory; and the state
after reset is such a state, with the default parameters, the PC at 0 and nothing listed in memory (decision D17; the
defaults are log 4, its memory log 2). -/
def Obligations.ResetInputState : Prop :=
  (∀ s : State, (∀ r, readReg s.resetInput r = 0#32) ∧ s.resetInput.pc = s.params.pc0 ∧ s.resetInput.halt = 0#3 ∧
    s.resetInput.mem = s.mem ∧ s.resetInput.params = s.params) ∧
  State.reset.resetInput = State.reset ∧
  State.reset.params = defaultParams ∧ State.reset.pc = 0x00000000#32 ∧ State.reset.mem = []

/-! ## Units of the datapath and access primitives -/

/-- R102, R103, R105 to R108, R110, and the operation of R109: the ALU's operations but the narrow comparison, and its
Zero output for every operation. -/
def Obligations.AluOperations : Prop :=
  ∀ a b : Word,
    (alu a b 0#3).1 = a + b ∧
    (alu a b 1#3).1 = a - b ∧ ((alu a b 1#3).2 = true ↔ a = b) ∧
    (alu a b 3#3).1 = (if a.toNat < b.toNat then 1#32 else 0#32) ∧
    (alu a b 4#3).1 = a &&& b ∧
    (alu a b 5#3).1 = a ||| b ∧
    (alu a b 6#3).1 = b.extractLsb' 0 16 ++ 0#16 ∧
    (alu a b 7#3).1 = ~~~a ∧
    (∀ c : BitVec 3, (alu a b c).2 = true ↔ (alu a b c).1 = 0#32) ∧
    ((alu a b 2#3).2 = true ↔ (alu a b 2#3).1 ≠ 1#32) ∧
    ((alu a b 3#3).2 = true ↔ ¬ a.toNat < b.toNat) ∧
    ((alu a b 7#3).2 = true ↔ a = 0xFFFFFFFF#32)

/-- R104: ALU operation 2 is the signed comparison of the two low halves as 16-bit numbers; bits 31:16 do not matter
(decision D15). -/
def Obligations.NarrowSignedLessThan : Prop :=
  ∀ a b : Word,
    (alu a b 2#3).1 = (if (a.extractLsb' 0 16).slt (b.extractLsb' 0 16) then 1#32 else 0#32) ∧
    ∀ a' b' : Word, a'.extractLsb' 0 16 = a.extractLsb' 0 16 → b'.extractLsb' 0 16 = b.extractLsb' 0 16 →
      alu a' b' 2#3 = alu a b 2#3

/-- R63: the sign-extension unit: the upper half is all ones exactly if bit 15 is set and else all zeros; the lower half
is the offset. -/
def Obligations.SignExtensionHalves : Prop :=
  ∀ offset : BitVec 16,
    (sext32 offset).extractLsb' 0 16 = offset ∧
    (offset.getLsbD 15 = true → (sext32 offset).extractLsb' 16 16 = 0xFFFF#16) ∧
    (offset.getLsbD 15 = false → (sext32 offset).extractLsb' 16 16 = 0x0000#16)

/-- R65: the jump target holds jsec in bits 27:2, zeros in bits 1:0 and the top four bits of the incremented PC. -/
def Obligations.JumpTargetBits : Prop :=
  ∀ (pc : Word) (jsec : BitVec 26),
    (jumpTarget (pc + 4#32) jsec).extractLsb' 2 26 = jsec ∧
    (jumpTarget (pc + 4#32) jsec).extractLsb' 0 2 = 0#2 ∧
    (jumpTarget (pc + 4#32) jsec).extractLsb' 28 4 = (pc + 4#32).extractLsb' 28 4

/-- R115: the whole control table, as the ControlUnit gives it for the opcode of each class under every OPCODE_MAP that
rule R8 admits (its cells marked D are decisions D3 and D4, its don't-care cells the values the rule shows). -/
def Obligations.ControlTableRows : Prop :=
  ∀ p : Params, p.opcodeMap.Legal →
    controlUnit p p.opcodeMap.rType = .ok ⟨1#2, 0#1, 0#1, 0#1, 0#1, 7#3, 0#1, 0#1, 1#1⟩ ∧
    controlUnit p p.opcodeMap.jump = .ok ⟨2#2, 1#1, 0#1, 0#1, 0#1, 0#3, 0#1, 0#1, 0#1⟩ ∧
    controlUnit p p.opcodeMap.branchEqual = .ok ⟨2#2, 0#1, 1#1, 0#1, 0#1, 1#3, 0#1, 0#1, 0#1⟩ ∧
    controlUnit p p.opcodeMap.addImmediate =
      .ok ⟨if p.immRegDst then 1#2 else 0#2, 0#1, 0#1, 0#1, 0#1, 0#3, 0#1, 1#1, 1#1⟩ ∧
    controlUnit p p.opcodeMap.setLessThanImmediate =
      .ok ⟨if p.immRegDst then 1#2 else 0#2, 0#1, 0#1, 0#1, 0#1, 2#3, 0#1, 1#1, 1#1⟩ ∧
    controlUnit p p.opcodeMap.setLessThanImmediateUnsigned =
      .ok ⟨if p.immRegDst then 1#2 else 0#2, 0#1, 0#1, 0#1, 0#1, 3#3, 0#1, 1#1, 1#1⟩ ∧
    controlUnit p p.opcodeMap.loadUpperImmediate =
      .ok ⟨if p.immRegDst then 1#2 else 0#2, 0#1, 0#1, 0#1, 0#1, 6#3, 0#1, 1#1, 1#1⟩ ∧
    controlUnit p p.opcodeMap.loadWord = .ok ⟨0#2, 0#1, 0#1, 1#1, 1#1, 0#3, 0#1, 1#1, 1#1⟩ ∧
    controlUnit p p.opcodeMap.storeWord = .ok ⟨2#2, 0#1, 0#1, 0#1, 0#1, 0#3, 1#1, 1#1, 0#1⟩

/-- R117: the properties of the control table, for every opcode that has a row (derived by the spec from its own
table). -/
def Obligations.ControlTableProperties : Prop :=
  ∀ (p : Params) (op : BitVec 6) (ctl : ControlSignals), controlUnit p op = .ok ctl →
    ¬(ctl.memRead = 1#1 ∧ ctl.memWrite = 1#1) ∧
    ¬(ctl.jump = 1#1 ∧ ctl.branch = 1#1) ∧
    (ctl.regWrite = 1#1 → ctl.regDst = 0#2 ∨ ctl.regDst = 1#2) ∧
    (ctl.memtoReg = 1#1 → op = p.opcodeMap.loadWord ∧ ctl.memRead = 1#1) ∧
    (ctl.aluOp = 7#3 → op = p.opcodeMap.rType)

/-- R122: no word selects ALU operation 7: what the resolver gives for a row of the table is never 7 (derived by the
spec from its own table). -/
def Obligations.NoWordSelectsNot : Prop :=
  ∀ (p : Params) (w : Word) (ctl : ControlSignals) (aluControl : BitVec 3),
    controlUnit p (instructionDecoder w).op = .ok ctl →
    aluControlResolver ctl.aluOp (instructionDecoder w).funct = .ok aluControl → aluControl ≠ 7#3

/-- R121: the ALUControlResolver. -/
def Obligations.ResolverTable : Prop :=
  (∀ (aluOp : BitVec 3) (funct : BitVec 6), aluOp ≠ 7#3 → aluControlResolver aluOp funct = .ok aluOp) ∧
  aluControlResolver 7#3 0x20#6 = .ok 0#3 ∧
  aluControlResolver 7#3 0x22#6 = .ok 1#3 ∧
  aluControlResolver 7#3 0x24#6 = .ok 4#3 ∧
  aluControlResolver 7#3 0x25#6 = .ok 5#3 ∧
  aluControlResolver 7#3 0x2A#6 = .ok 2#3 ∧
  aluControlResolver 7#3 0x2B#6 = .ok 3#3 ∧
  (∀ funct : BitVec 6, funct ∉ [0x20#6, 0x22#6, 0x24#6, 0x25#6, 0x2A#6, 0x2B#6] →
    aluControlResolver 7#3 funct = .error .unrecognizedFunction)

/-- R128: the WriteBackUnit, for every value of its control inputs, those no row produces included. -/
def Obligations.WriteBackTable : Prop :=
  ∀ (ctl : ControlSignals) (f : Fields) (memdata result : Word) (s : State),
    (ctl.regWrite = 1#1 → ctl.memtoReg = 1#1 → ctl.regDst = 0#2 →
      writeBack ctl f memdata result s = writeReg f.r2 memdata s) ∧
    (ctl.regWrite = 1#1 → ctl.memtoReg = 0#1 → ctl.regDst = 1#2 →
      writeBack ctl f memdata result s = writeReg f.r3 result s) ∧
    (ctl.regWrite = 0#1 → writeBack ctl f memdata result s = s) ∧
    (ctl.memtoReg = 0#1 → ctl.regDst = 0#2 → writeBack ctl f memdata result s = s) ∧
    (ctl.memtoReg = 1#1 → ctl.regDst = 1#2 → writeBack ctl f memdata result s = s) ∧
    (2 ≤ ctl.regDst.toNat → writeBack ctl f memdata result s = s)

/-- R130: the PCUpdateUnit's adjustments are sequential, the combined case included, and keep a multiple of 4 one
(modulo 2^32 by decision D16). -/
def Obligations.PcUpdateIsSequential : Prop :=
  ∀ (pc : Word) (jsec : BitVec 26) (offset : BitVec 16) (jump branch : BitVec 1) (zero : Bool),
    pcUpdate pc jsec (sext32 offset) 0#1 0#1 zero = pc + 4#32 ∧
    pcUpdate pc jsec (sext32 offset) 1#1 0#1 zero = jumpTarget (pc + 4#32) jsec ∧
    pcUpdate pc jsec (sext32 offset) 0#1 1#1 true = pc + 4#32 + branchDisplacement offset ∧
    pcUpdate pc jsec (sext32 offset) 1#1 1#1 true = jumpTarget (pc + 4#32) jsec + branchDisplacement offset ∧
    pcUpdate pc jsec (sext32 offset) jump branch false = pcUpdate pc jsec (sext32 offset) jump 0#1 true ∧
    (pc.toNat % 4 = 0 → (pcUpdate pc jsec (sext32 offset) jump branch zero).toNat % 4 = 0)

/-- R44, R45: the data read, under both polarities: under INVERTED the addresses 4k+1, 4k+2 and 4k+3 read M[k] and 4k
halts; under CONVENTIONAL the other way round. The range check is decision D6, the polarities decision D5. -/
def Obligations.DataReadChecks : Prop :=
  ∀ (s : State) (a : Word),
    (dataOk .inverted a = true ↔ a.toNat % 4 ≠ 0) ∧
    (dataOk .conventional a = true ↔ a.toNat % 4 = 0) ∧
    (dataOk s.params.memAlignPolarity a = false → memRead s a = .error .memoryAlignmentFault) ∧
    (dataOk s.params.memAlignPolarity a = true → 65536 ≤ a.toNat → memRead s a = .error .outOfRange) ∧
    (dataOk s.params.memAlignPolarity a = true → a.toNat < 65536 →
      memRead s a = .ok (Memory.readWord s.mem (a.toNat / 4)))

/-- R46: the data write: its checks, the word it replaces, and that no other word and nothing else changes. The range
check is decision D6. -/
def Obligations.DataWriteReplacesOneWord : Prop :=
  ∀ (s : State) (a v : Word),
    (dataOk s.params.memAlignPolarity a = false → memWrite s a v = .error .memoryAlignmentFault) ∧
    (dataOk s.params.memAlignPolarity a = true → 65536 ≤ a.toNat → memWrite s a v = .error .outOfRange) ∧
    (dataOk s.params.memAlignPolarity a = true → a.toNat < 65536 → Memory.wf s.mem = true →
      ∃ t, memWrite s a v = .ok t ∧ t = { s with mem := t.mem } ∧ Memory.wf t.mem = true ∧
        Memory.readWord t.mem (a.toNat / 4) = v ∧
        ∀ k, k ≠ a.toNat / 4 → Memory.readWord t.mem k = Memory.readWord s.mem k)

/-! ## Runs -/

/-- R343: a run ends at the first cycle after which HALT is not 0, and its outcome is HALT, PC, registers and memory at
that point; a run that meets OutOfRange within the bound ends in the model fault; a run that is still running when the
bound is used up has no outcome, and only such a run; none is refused (decisions D6 and D22; log 5, log 13). -/
def Obligations.RunEndsAtFirstHalt : Prop :=
  ∀ (fuel : Nat) (s : State), s.halt = 0#3 →
    (∀ o, runEnd fuel s = .halted o ↔
      ∃ k t, k < fuel ∧ (∀ j u, j ≤ k → RunsTo j s u → u.halt = 0#3) ∧ RunsTo (k + 1) s t ∧ t.halt ≠ 0#3 ∧
        o.halt = t.halt ∧ o.pc = t.pc ∧ o.x = t.x ∧ o.mem = t.mem) ∧
    (∀ o, runEnd fuel s = .modelFault o ↔ ∃ final, RunsIntoModelFault fuel s final ∧ o = final.report) ∧
    (runEnd fuel s = .outOfFuel ↔ ∃ t, RunsTo fuel s t ∧ t.halt = 0#3) ∧
    (∀ r, runEnd fuel s ≠ .refused r)

/-- R343: the bound does not decide how a run ends: a run that ended under one bound ends in the same way under every
larger one (decision D22; log 13). -/
def Obligations.LargerFuelKeepsTheOutcome : Prop :=
  ∀ (fuel more : Nat) (s : State), runEnd fuel s ≠ .outOfFuel → runEnd (fuel + more) s = runEnd fuel s

/-- R343: a run may never end: a branch-equal of a register with itself and offset -1 has no outcome under any bound,
from every running state that fetches it (decision D22; log 13). -/
def Obligations.SelfBranchNeverEnds : Prop :=
  ∀ (fuel : Nat) (s : State) (r : RegIdx), s.halt = 0#3 → s.pc.toNat % 4 = 0 → s.pc.toNat < 65536 →
    decode s.params.opcodeMap (Memory.readWord s.mem (s.pc.toNat / 4)) = .ok (.beq r r 0xFFFF#16) →
    runEnd fuel s = .outOfFuel
end

