-- ==== Sys2Proof/Laws/Decode.lean ====
section
/-! SUPPORT. The opcode map as a function and its inverse, and the fields of an encoded word. -/

namespace Sys2Proof

/-- What `classify` answers is a class with that opcode, legal map or not. -/
theorem OpcodeMap.opcode_of_classify {m : OpcodeMap} {op : BitVec 6} {c : OpClass} (h : m.classify op = some c) :
    m.opcode c = op := by
  unfold OpcodeMap.classify at h
  repeat' split at h
  all_goals first
    | (injection h with h; subst h; simp only [OpcodeMap.opcode]; exact Eq.symm ‹_›)
    | cases h

/-- Under a legal map, the opcode of a class is classified as that class. -/
theorem OpcodeMap.classify_opcode {m : OpcodeMap} (hm : m.Legal) (c : OpClass) :
    m.classify (m.opcode c) = some c := by
  have hn := hm.1
  simp only [OpcodeMap.opcodes, List.nodup_cons, List.mem_cons, List.not_mem_nil, or_false, not_or,
    List.nodup_nil, and_true, not_false_eq_true] at hn
  obtain ⟨⟨a1, a2, a3, a4, a5, a6, a7, a8⟩, ⟨b1, b2, b3, b4, b5, b6, b7⟩, ⟨c1, c2, c3, c4, c5, c6⟩,
    ⟨d1, d2, d3, d4, d5⟩, ⟨e1, e2, e3, e4⟩, ⟨f1, f2, f3⟩, ⟨g1, g2⟩, h1⟩ := hn
  cases c <;> simp [OpcodeMap.classify, OpcodeMap.opcode, *, Ne.symm a1, Ne.symm a2, Ne.symm a3, Ne.symm a4,
    Ne.symm a5, Ne.symm a6, Ne.symm a7, Ne.symm a8, Ne.symm b1, Ne.symm b2, Ne.symm b3, Ne.symm b4, Ne.symm b5,
    Ne.symm b6, Ne.symm b7, Ne.symm c1, Ne.symm c2, Ne.symm c3, Ne.symm c4, Ne.symm c5, Ne.symm c6, Ne.symm d1,
    Ne.symm d2, Ne.symm d3, Ne.symm d4, Ne.symm d5, Ne.symm e1, Ne.symm e2, Ne.symm e3, Ne.symm e4, Ne.symm f1,
    Ne.symm f2, Ne.symm f3, Ne.symm g1, Ne.symm g2, Ne.symm h1]

/-- A value is outside the map exactly when no class has it. -/
theorem OpcodeMap.classify_none_iff {m : OpcodeMap} {op : BitVec 6} :
    m.classify op = none ↔ op ∉ m.opcodes := by
  unfold OpcodeMap.classify OpcodeMap.opcodes
  simp only [List.mem_cons, List.not_mem_nil, or_false, not_or]
  repeat' split
  all_goals simp_all

/-! The fields of the three formats. Each proof drops the parts below the field, then the parts above it. -/

@[simp] theorem opField_encodeR (op : BitVec 6) (r1 r2 r3 : RegIdx) (g : BitVec 5) (f : BitVec 6) : opField (encodeR op r1 r2 r3 g f) = op := by
  unfold opField encodeR
  rw [BitVec.extractLsb'_append_eq_of_le (by decide)]
  rw [BitVec.extractLsb'_append_eq_of_le (by decide)]
  rw [BitVec.extractLsb'_append_eq_of_le (by decide)]
  rw [BitVec.extractLsb'_append_eq_of_le (by decide)]
  exact BitVec.extractLsb'_append_eq_left

@[simp] theorem r1Field_encodeR (op : BitVec 6) (r1 r2 r3 : RegIdx) (g : BitVec 5) (f : BitVec 6) : r1Field (encodeR op r1 r2 r3 g f) = r1 := by
  unfold r1Field encodeR
  rw [BitVec.extractLsb'_append_eq_of_le (by decide)]
  rw [BitVec.extractLsb'_append_eq_of_le (by decide)]
  rw [BitVec.extractLsb'_append_eq_of_le (by decide)]
  rw [BitVec.extractLsb'_append_eq_of_le (by decide)]
  exact BitVec.extractLsb'_append_eq_right

@[simp] theorem r2Field_encodeR (op : BitVec 6) (r1 r2 r3 : RegIdx) (g : BitVec 5) (f : BitVec 6) : r2Field (encodeR op r1 r2 r3 g f) = r2 := by
  unfold r2Field encodeR
  rw [BitVec.extractLsb'_append_eq_of_le (by decide)]
  rw [BitVec.extractLsb'_append_eq_of_le (by decide)]
  rw [BitVec.extractLsb'_append_eq_of_le (by decide)]
  exact BitVec.extractLsb'_append_eq_right

@[simp] theorem r3Field_encodeR (op : BitVec 6) (r1 r2 r3 : RegIdx) (g : BitVec 5) (f : BitVec 6) : r3Field (encodeR op r1 r2 r3 g f) = r3 := by
  unfold r3Field encodeR
  rw [BitVec.extractLsb'_append_eq_of_le (by decide)]
  rw [BitVec.extractLsb'_append_eq_of_le (by decide)]
  exact BitVec.extractLsb'_append_eq_right

@[simp] theorem ignoredField_encodeR (op : BitVec 6) (r1 r2 r3 : RegIdx) (g : BitVec 5) (f : BitVec 6) : ignoredField (encodeR op r1 r2 r3 g f) = g := by
  unfold ignoredField encodeR
  rw [BitVec.extractLsb'_append_eq_of_le (by decide)]
  exact BitVec.extractLsb'_append_eq_right

@[simp] theorem functField_encodeR (op : BitVec 6) (r1 r2 r3 : RegIdx) (g : BitVec 5) (f : BitVec 6) : functField (encodeR op r1 r2 r3 g f) = f := by
  unfold functField encodeR
  exact BitVec.extractLsb'_append_eq_right

@[simp] theorem opField_encodeI (op : BitVec 6) (r1 r2 : RegIdx) (o : BitVec 16) : opField (encodeI op r1 r2 o) = op := by
  unfold opField encodeI
  rw [BitVec.extractLsb'_append_eq_of_le (by decide)]
  rw [BitVec.extractLsb'_append_eq_of_le (by decide)]
  exact BitVec.extractLsb'_append_eq_left

@[simp] theorem r1Field_encodeI (op : BitVec 6) (r1 r2 : RegIdx) (o : BitVec 16) : r1Field (encodeI op r1 r2 o) = r1 := by
  unfold r1Field encodeI
  rw [BitVec.extractLsb'_append_eq_of_le (by decide)]
  rw [BitVec.extractLsb'_append_eq_of_le (by decide)]
  exact BitVec.extractLsb'_append_eq_right

@[simp] theorem r2Field_encodeI (op : BitVec 6) (r1 r2 : RegIdx) (o : BitVec 16) : r2Field (encodeI op r1 r2 o) = r2 := by
  unfold r2Field encodeI
  rw [BitVec.extractLsb'_append_eq_of_le (by decide)]
  exact BitVec.extractLsb'_append_eq_right

@[simp] theorem offsetField_encodeI (op : BitVec 6) (r1 r2 : RegIdx) (o : BitVec 16) : offsetField (encodeI op r1 r2 o) = o := by
  unfold offsetField encodeI
  exact BitVec.extractLsb'_append_eq_right

@[simp] theorem opField_encodeJ (op : BitVec 6) (t : BitVec 26) : opField (encodeJ op t) = op := by
  unfold opField encodeJ
  exact BitVec.extractLsb'_append_eq_left

@[simp] theorem jsecField_encodeJ (op : BitVec 6) (t : BitVec 26) : jsecField (encodeJ op t) = t := by
  unfold jsecField encodeJ
  exact BitVec.extractLsb'_append_eq_right

/-! The fields of a word put together again give the word. -/

theorem encodeR_fields (w : Word) :
    encodeR (opField w) (r1Field w) (r2Field w) (r3Field w) (ignoredField w) (functField w) = w := by
  unfold encodeR opField r1Field r2Field r3Field ignoredField functField
  rw [BitVec.extractLsb'_append_extractLsb'_eq_extractLsb' (by decide),
    BitVec.extractLsb'_append_extractLsb'_eq_extractLsb' (by decide),
    BitVec.extractLsb'_append_extractLsb'_eq_extractLsb' (by decide),
    BitVec.extractLsb'_append_extractLsb'_eq_extractLsb' (by decide),
    BitVec.extractLsb'_append_extractLsb'_eq_extractLsb' (by decide)]
  exact BitVec.extractLsb'_eq_self

theorem encodeI_fields (w : Word) :
    encodeI (opField w) (r1Field w) (r2Field w) (offsetField w) = w := by
  unfold encodeI opField r1Field r2Field offsetField
  rw [BitVec.extractLsb'_append_extractLsb'_eq_extractLsb' (by decide),
    BitVec.extractLsb'_append_extractLsb'_eq_extractLsb' (by decide),
    BitVec.extractLsb'_append_extractLsb'_eq_extractLsb' (by decide)]
  exact BitVec.extractLsb'_eq_self

theorem encodeJ_fields (w : Word) :
    encodeJ (opField w) (jsecField w) = w := by
  unfold encodeJ opField jsecField
  rw [BitVec.extractLsb'_append_extractLsb'_eq_extractLsb' (by decide)]
  exact BitVec.extractLsb'_eq_self

end Sys2Proof
end

