-- ==== Sys2Proof/Laws/State.lean ====
section
/-! SUPPORT. What each named update of State does to each field, so that no later proof unfolds a record update. -/

namespace Sys2Proof.Machine

@[simp] theorem writeReg_pc (r : RegIdx) (v : Word) (s : State) : (writeReg r v s).pc = s.pc := rfl
@[simp] theorem writeReg_mem (r : RegIdx) (v : Word) (s : State) : (writeReg r v s).mem = s.mem := rfl
@[simp] theorem writeReg_halt (r : RegIdx) (v : Word) (s : State) : (writeReg r v s).halt = s.halt := rfl
@[simp] theorem writeReg_params (r : RegIdx) (v : Word) (s : State) : (writeReg r v s).params = s.params := rfl

@[simp] theorem setPc_x (v : Word) (s : State) : (setPc v s).x = s.x := rfl
@[simp] theorem setPc_pc (v : Word) (s : State) : (setPc v s).pc = v := rfl
@[simp] theorem setPc_mem (v : Word) (s : State) : (setPc v s).mem = s.mem := rfl
@[simp] theorem setPc_halt (v : Word) (s : State) : (setPc v s).halt = s.halt := rfl
@[simp] theorem setPc_params (v : Word) (s : State) : (setPc v s).params = s.params := rfl

@[simp] theorem setMem_x (m : Memory) (s : State) : (setMem m s).x = s.x := rfl
@[simp] theorem setMem_pc (m : Memory) (s : State) : (setMem m s).pc = s.pc := rfl
@[simp] theorem setMem_mem (m : Memory) (s : State) : (setMem m s).mem = m := rfl
@[simp] theorem setMem_halt (m : Memory) (s : State) : (setMem m s).halt = s.halt := rfl
@[simp] theorem setMem_params (m : Memory) (s : State) : (setMem m s).params = s.params := rfl

@[simp] theorem setHalt_x (c : BitVec 3) (s : State) : (setHalt c s).x = s.x := rfl
@[simp] theorem setHalt_pc (c : BitVec 3) (s : State) : (setHalt c s).pc = s.pc := rfl
@[simp] theorem setHalt_mem (c : BitVec 3) (s : State) : (setHalt c s).mem = s.mem := rfl
@[simp] theorem setHalt_halt (c : BitVec 3) (s : State) : (setHalt c s).halt = c := rfl
@[simp] theorem setHalt_params (c : BitVec 3) (s : State) : (setHalt c s).params = s.params := rfl

@[simp] theorem advancePc_x (s : State) : (advancePc s).x = s.x := rfl
@[simp] theorem advancePc_pc (s : State) : (advancePc s).pc = s.pc + 4#32 := rfl
@[simp] theorem advancePc_mem (s : State) : (advancePc s).mem = s.mem := rfl
@[simp] theorem advancePc_halt (s : State) : (advancePc s).halt = s.halt := rfl
@[simp] theorem advancePc_params (s : State) : (advancePc s).params = s.params := rfl

@[simp] theorem readReg_setPc (v : Word) (s : State) (r : RegIdx) : readReg (setPc v s) r = readReg s r := rfl
@[simp] theorem readReg_setMem (m : Memory) (s : State) (r : RegIdx) : readReg (setMem m s) r = readReg s r := rfl
@[simp] theorem readReg_setHalt (c : BitVec 3) (s : State) (r : RegIdx) : readReg (setHalt c s) r = readReg s r := rfl
@[simp] theorem readReg_advancePc (s : State) (r : RegIdx) : readReg (advancePc s) r = readReg s r := rfl

@[simp] theorem launch_x (p : Params) (image : List Word) (regs : Vector Word 32) :
    (State.launch p image regs).x = regs := rfl
@[simp] theorem launch_pc (p : Params) (image : List Word) (regs : Vector Word 32) :
    (State.launch p image regs).pc = p.pc0 := rfl
@[simp] theorem launch_mem (p : Params) (image : List Word) (regs : Vector Word 32) :
    (State.launch p image regs).mem = Memory.ofImage 0 image := rfl
@[simp] theorem launch_halt (p : Params) (image : List Word) (regs : Vector Word 32) :
    (State.launch p image regs).halt = 0#3 := rfl
@[simp] theorem launch_params (p : Params) (image : List Word) (regs : Vector Word 32) :
    (State.launch p image regs).params = p := rfl

@[simp] theorem resetInput_pc (s : State) : s.resetInput.pc = s.params.pc0 := rfl
@[simp] theorem resetInput_mem (s : State) : s.resetInput.mem = s.mem := rfl
@[simp] theorem resetInput_halt (s : State) : s.resetInput.halt = 0#3 := rfl
@[simp] theorem resetInput_params (s : State) : s.resetInput.params = s.params := rfl

@[simp] theorem placeNextWord_halt (s : State) (w : Word) : (placeNextWord s w).halt = 0#3 := rfl
@[simp] theorem placeNextWord_params (s : State) (w : Word) : (placeNextWord s w).params = s.params := rfl
@[simp] theorem placeNextWord_x (s : State) (w : Word) : (placeNextWord s w).x = s.x := rfl

theorem readReg_writeReg_same (r : RegIdx) (v : Word) (s : State) : readReg (writeReg r v s) r = v := by
  simp [readReg, writeReg]

theorem readReg_writeReg_ne {r r' : RegIdx} (v : Word) (s : State) (h : r' ≠ r) :
    readReg (writeReg r v s) r' = readReg s r' := by
  have hn : r.toNat ≠ r'.toNat := fun e => h (BitVec.eq_of_toNat_eq e.symm)
  simp [readReg, writeReg, hn]

end Sys2Proof.Machine
end

