-- ==== Sys2Proof/Laws/Memory.lean ====
section
/-! SUPPORT. Memory: a byte read after a byte written, and the canonical form, which every operation keeps and in which
equal contents are equal lists. -/

namespace Sys2Proof.Machine

theorem Memory.wfFrom_cons {lo a : Nat} {b : Byte} {m : Memory} :
    Memory.wfFrom lo ((a, b) :: m) = true ↔
      lo ≤ a ∧ a < 4 * memoryWords ∧ b ≠ Memory.unlisted ∧ Memory.wfFrom (a + 1) m = true := by
  simp only [Memory.wfFrom, Bool.and_eq_true, decide_eq_true_eq]
  tauto

theorem Memory.wfFrom_weaken {lo hi : Nat} (h : lo ≤ hi) :
    ∀ {m : Memory}, Memory.wfFrom hi m = true → Memory.wfFrom lo m = true
  | [], _ => rfl
  | (_, _) :: _, hm => by
    obtain ⟨h1, h2, h3, h4⟩ := Memory.wfFrom_cons.1 hm
    exact Memory.wfFrom_cons.2 ⟨h.trans h1, h2, h3, h4⟩

/-- Below the lowest address of a canonical list nothing is listed. -/
theorem Memory.getByte_below {k lo : Nat} (h : k < lo) :
    ∀ {m : Memory}, Memory.wfFrom lo m = true → Memory.getByte m k = Memory.unlisted
  | [], _ => rfl
  | (a, _) :: _, hm => by
    obtain ⟨h1, _, _, h4⟩ := Memory.wfFrom_cons.1 hm
    have hne : a ≠ k := by omega
    simp only [Memory.getByte, hne, if_false]
    exact Memory.getByte_below (by omega) h4

theorem Memory.getByte_setByte_ne {k k' : Nat} (v : Byte) (h : k' ≠ k) :
    ∀ m : Memory, Memory.getByte (Memory.setByte m k v) k' = Memory.getByte m k'
  | [] => by
    simp only [Memory.setByte]
    split <;> simp [Memory.getByte, Ne.symm h]
  | (a, b) :: m => by
    have ih := Memory.getByte_setByte_ne v h m
    simp only [Memory.setByte]
    split
    · split <;> simp [Memory.getByte, Ne.symm h]
    · split
      · next _ hka =>
        subst hka
        split <;> simp [Memory.getByte, Ne.symm h]
      · simp [Memory.getByte, ih]

theorem Memory.getByte_setByte_same {lo k : Nat} (v : Byte) :
    ∀ {m : Memory}, Memory.wfFrom lo m = true → Memory.getByte (Memory.setByte m k v) k = v
  | [], _ => by
    simp only [Memory.setByte]
    split <;> simp_all [Memory.getByte]
  | (a, b) :: m, hm => by
    obtain ⟨_, _, _, h4⟩ := Memory.wfFrom_cons.1 hm
    have ih := Memory.getByte_setByte_same (k := k) v h4
    simp only [Memory.setByte]
    split
    · next hka =>
      split
      · next hv =>
        have hne : a ≠ k := by omega
        simp only [Memory.getByte, hne, if_false, hv]
        exact Memory.getByte_below (by omega) h4
      · simp [Memory.getByte]
    · split
      · next hka =>
        subst hka
        split
        · next hv => rw [hv]; exact Memory.getByte_below (Nat.lt_succ_self _) h4
        · simp [Memory.getByte]
      · next hne =>
        simp [Memory.getByte, Ne.symm hne, ih]

theorem Memory.wfFrom_setByte {k : Nat} (v : Byte) (hk : k < 4 * memoryWords) :
    ∀ {lo : Nat} {m : Memory}, lo ≤ k → Memory.wfFrom lo m = true → Memory.wfFrom lo (Memory.setByte m k v) = true
  | lo, [], hlo, _ => by
    simp only [Memory.setByte]
    split
    · rfl
    · next hv => exact Memory.wfFrom_cons.2 ⟨hlo, hk, hv, rfl⟩
  | lo, (a, b) :: m, hlo, hm => by
    obtain ⟨h1, h2, h3, h4⟩ := Memory.wfFrom_cons.1 hm
    simp only [Memory.setByte]
    split
    · next hka =>
      split
      · exact hm
      · next hv =>
        exact Memory.wfFrom_cons.2 ⟨hlo, hk, hv, Memory.wfFrom_cons.2 ⟨hka, h2, h3, h4⟩⟩
    · split
      · next hka =>
        subst hka
        split
        · exact Memory.wfFrom_weaken (by omega) h4
        · next hv => exact Memory.wfFrom_cons.2 ⟨h1, h2, hv, h4⟩
      · exact Memory.wfFrom_cons.2 ⟨h1, h2, h3, Memory.wfFrom_setByte v hk (by omega) h4⟩

/-- Writing a backed byte keeps the canonical form. -/
theorem Memory.wf_setByte {m : Memory} {k : Nat} (v : Byte) (hk : k < 4 * memoryWords) (hm : Memory.wf m = true) :
    Memory.wf (Memory.setByte m k v) = true :=
  Memory.wfFrom_setByte v hk (Nat.zero_le k) hm

/-- Writing a backed word keeps the canonical form. -/
theorem Memory.wf_writeWord {m : Memory} {k : Nat} (v : Word) (hk : k < memoryWords) (hm : Memory.wf m = true) :
    Memory.wf (Memory.writeWord m k v) = true := by
  unfold Memory.writeWord
  exact Memory.wf_setByte _ (by omega) (Memory.wf_setByte _ (by omega)
    (Memory.wf_setByte _ (by omega) (Memory.wf_setByte _ (by omega) hm)))

/-- Every image is laid out in canonical form. -/
theorem Memory.wf_ofImage : ∀ (k : Nat) (image : List Word), Memory.wf (Memory.ofImage k image) = true
  | _, [] => rfl
  | k, w :: image => by
    unfold Memory.ofImage
    split
    · next hk => exact Memory.wf_writeWord w hk (Memory.wf_ofImage (k + 1) image)
    · rfl

/-- Canonical lists with the same contents are the same list. -/
theorem Memory.wfFrom_ext :
    ∀ {lo : Nat} {m m' : Memory}, Memory.wfFrom lo m = true → Memory.wfFrom lo m' = true →
      (∀ k, Memory.getByte m k = Memory.getByte m' k) → m = m'
  | _, [], [], _, _, _ => rfl
  | lo, [], (a, b) :: m', _, hm', he => by
    obtain ⟨_, _, h3, _⟩ := Memory.wfFrom_cons.1 hm'
    have := he a
    simp only [Memory.getByte, if_true] at this
    exact absurd this.symm h3
  | lo, (a, b) :: m, [], hm, _, he => by
    obtain ⟨_, _, h3, _⟩ := Memory.wfFrom_cons.1 hm
    have := he a
    simp only [Memory.getByte, if_true] at this
    exact absurd this h3
  | lo, (a, b) :: m, (a', b') :: m', hm, hm', he => by
    obtain ⟨h1, h2, h3, h4⟩ := Memory.wfFrom_cons.1 hm
    obtain ⟨h1', h2', h3', h4'⟩ := Memory.wfFrom_cons.1 hm'
    rcases Nat.lt_trichotomy a a' with hlt | heq | hgt
    · have ha := he a
      have : a' ≠ a := by omega
      simp only [Memory.getByte, if_true, this, if_false] at ha
      rw [Memory.getByte_below (by omega) h4'] at ha
      exact absurd ha h3
    · subst heq
      have hb := he a
      simp only [Memory.getByte, if_true] at hb
      subst hb
      have htail : m = m' := Memory.wfFrom_ext h4 h4' fun k => by
        by_cases hk : a = k
        · subst hk
          rw [Memory.getByte_below (Nat.lt_succ_self _) h4, Memory.getByte_below (Nat.lt_succ_self _) h4']
        · have := he k
          simpa [Memory.getByte, hk] using this
      rw [htail]
    · have ha := he a'
      have : a ≠ a' := by omega
      simp only [Memory.getByte, if_true, this, if_false] at ha
      rw [Memory.getByte_below (by omega) h4] at ha
      exact absurd ha.symm h3'

/-- Canonical memories with the same contents are equal data. -/
theorem Memory.wf_ext {m m' : Memory} (hm : Memory.wf m = true) (hm' : Memory.wf m' = true)
    (h : ∀ k, Memory.getByte m k = Memory.getByte m' k) : m = m' :=
  Memory.wfFrom_ext hm hm' h

/-- A byte outside the written word is unchanged. -/
theorem Memory.getByte_writeWord_outside {k a : Nat} (v : Word) (m : Memory) (h : a < 4 * k ∨ 4 * k + 3 < a) :
    Memory.getByte (Memory.writeWord m k v) a = Memory.getByte m a := by
  unfold Memory.writeWord
  rw [Memory.getByte_setByte_ne _ (by omega), Memory.getByte_setByte_ne _ (by omega),
    Memory.getByte_setByte_ne _ (by omega), Memory.getByte_setByte_ne _ (by omega)]

/-- Another word is unchanged. -/
theorem Memory.readWord_writeWord_ne {k j : Nat} (v : Word) (m : Memory) (h : j ≠ k) :
    Memory.readWord (Memory.writeWord m k v) j = Memory.readWord m j := by
  unfold Memory.readWord
  rw [Memory.getByte_writeWord_outside v m (by omega), Memory.getByte_writeWord_outside v m (by omega),
    Memory.getByte_writeWord_outside v m (by omega), Memory.getByte_writeWord_outside v m (by omega)]

/-- A word read after it is written is the written value. -/
theorem Memory.readWord_writeWord_same {k : Nat} (v : Word) {m : Memory} (hk : k < memoryWords)
    (hm : Memory.wf m = true) : Memory.readWord (Memory.writeWord m k v) k = v := by
  have h0 := Memory.wf_setByte (k := 4 * k) (v.extractLsb' 0 8) (by omega) hm
  have h1 := Memory.wf_setByte (k := 4 * k + 1) (v.extractLsb' 8 8) (by omega) h0
  have h2 := Memory.wf_setByte (k := 4 * k + 2) (v.extractLsb' 16 8) (by omega) h1
  have e3 : Memory.getByte (Memory.writeWord m k v) (4 * k + 3) = v.extractLsb' 24 8 :=
    Memory.getByte_setByte_same _ h2
  have e2 : Memory.getByte (Memory.writeWord m k v) (4 * k + 2) = v.extractLsb' 16 8 := by
    rw [Memory.writeWord, Memory.getByte_setByte_ne _ (by omega)]
    exact Memory.getByte_setByte_same _ h1
  have e1 : Memory.getByte (Memory.writeWord m k v) (4 * k + 1) = v.extractLsb' 8 8 := by
    rw [Memory.writeWord, Memory.getByte_setByte_ne _ (by omega), Memory.getByte_setByte_ne _ (by omega)]
    exact Memory.getByte_setByte_same _ h0
  have e0 : Memory.getByte (Memory.writeWord m k v) (4 * k) = v.extractLsb' 0 8 := by
    rw [Memory.writeWord, Memory.getByte_setByte_ne _ (by omega), Memory.getByte_setByte_ne _ (by omega),
      Memory.getByte_setByte_ne _ (by omega)]
    exact Memory.getByte_setByte_same _ hm
  unfold Memory.readWord
  rw [e3, e2, e1, e0]
  apply BitVec.eq_of_getElem_eq
  intro i hi
  simp only [BitVec.getElem_append, BitVec.getElem_extractLsb']
  split
  · simp [BitVec.getLsbD_eq_getElem hi]
  · split
    · rw [BitVec.getLsbD_eq_getElem (by omega)]; congr 1; omega
    · split
      · rw [BitVec.getLsbD_eq_getElem (by omega)]; congr 1; omega
      · rw [BitVec.getLsbD_eq_getElem (by omega)]; congr 1; omega

end Sys2Proof.Machine
end

