-- ==== Sys2Proof/Laws/Ops.lean ====
section
/-! SUPPORT. For each shared operation, one lemma that says everything it can do; proofs cite these and do not unfold the
operation. -/

namespace Sys2Proof.Machine

/-- A halt either answers the same state with the code in HALT, for the source's four kinds, or is the model fault. -/
theorem raiseHalt_cases (h : Halt) (s : State) :
    (h ≠ .outOfRange ∧ raiseHalt h s = .next (setHalt (haltCode h) s)) ∨
    (h = .outOfRange ∧ raiseHalt h s = .fault (.outOfRange (setHalt 5#3 s))) := by
  cases h <;> simp [raiseHalt, haltCode]

theorem raiseHalt_next {h : Halt} {s t : State} (e : raiseHalt h s = .next t) :
    h ≠ .outOfRange ∧ t = setHalt (haltCode h) s := by
  rcases raiseHalt_cases h s with ⟨hne, hr⟩ | ⟨-, hr⟩
  · rw [hr] at e
    injection e with e
    exact ⟨hne, e.symm⟩
  · rw [hr] at e
    cases e

theorem raiseHalt_fault {h : Halt} {s : State} {f : Fault} (e : raiseHalt h s = .fault f) :
    h = .outOfRange ∧ f = .outOfRange (setHalt 5#3 s) := by
  rcases raiseHalt_cases h s with ⟨-, hr⟩ | ⟨heq, hr⟩
  · rw [hr] at e
    cases e
  · rw [hr] at e
    injection e with e
    exact ⟨heq, e.symm⟩

theorem raiseHalt_not_refused (h : Halt) (s : State) (r : Refusal) : raiseHalt h s ≠ .refused r := by
  rcases raiseHalt_cases h s with ⟨-, hr⟩ | ⟨-, hr⟩ <;> rw [hr] <;> exact fun e => by cases e

theorem haltCode_ne_zero (h : Halt) : haltCode h ≠ 0#3 := by cases h <;> decide

theorem haltCode_injective : Function.Injective haltCode := by
  intro h h' e
  cases h <;> cases h' <;> first | rfl | exact absurd e (by decide)

/-- A fetch succeeds exactly at an aligned, backed address, and answers the word there. -/
theorem memFetch_ok_iff {s : State} {a w : Word} :
    memFetch s a = .ok w ↔ lowBits a = 0#2 ∧ idx a < memoryWords ∧ w = Memory.readWord s.mem (idx a) := by
  unfold memFetch
  split
  · next h => simp [h]
  · next h =>
    split
    · next h' => simp only [reduceCtorEq, false_iff, not_and]; omega
    · next h' =>
      simp only [not_not] at h
      simp only [Except.ok.injEq, h, true_and, show idx a < memoryWords by omega]
      exact eq_comm

theorem memFetch_error_iff {s : State} {a : Word} {h : Halt} :
    memFetch s a = .error h ↔ (lowBits a ≠ 0#2 ∧ h = .misalignedFetch) ∨
      (lowBits a = 0#2 ∧ memoryWords ≤ idx a ∧ h = .outOfRange) := by
  unfold memFetch
  split
  · next hl => simp [hl, eq_comm]
  · next hl =>
    simp only [not_not] at hl
    split
    · next h' => simp [hl, eq_comm]; omega
    · next h' => simp [hl]; omega

/-- A load succeeds exactly at a permitted, backed address, and answers the word there. -/
theorem memRead_ok_iff {s : State} {a w : Word} :
    memRead s a = .ok w ↔
      dataOk s.params.memAlignPolarity a = true ∧ idx a < memoryWords ∧ w = Memory.readWord s.mem (idx a) := by
  unfold memRead
  split
  · next h => simp [h]
  · next h =>
    rw [Bool.not_eq_false] at h
    split
    · simp only [reduceCtorEq, false_iff, not_and]; omega
    · simp only [Except.ok.injEq, h, true_and, show idx a < memoryWords by omega]
      exact eq_comm

/-- A store succeeds exactly at a permitted, backed address, and replaces the word there. -/
theorem memWrite_ok_iff {s t : State} {a v : Word} :
    memWrite s a v = .ok t ↔
      dataOk s.params.memAlignPolarity a = true ∧ idx a < memoryWords ∧
        t = setMem (Memory.writeWord s.mem (idx a) v) s := by
  unfold memWrite
  split
  · next h => simp [h]
  · next h =>
    rw [Bool.not_eq_false] at h
    split
    · simp only [reduceCtorEq, false_iff, not_and]; omega
    · simp only [Except.ok.injEq, h, true_and, show idx a < memoryWords by omega]
      exact eq_comm

/-- The two ways a data access halts, the legality check first. -/
theorem memRead_error_iff {s : State} {a : Word} {h : Halt} :
    memRead s a = .error h ↔
      (dataOk s.params.memAlignPolarity a = false ∧ h = .memoryAlignmentFault) ∨
      (dataOk s.params.memAlignPolarity a = true ∧ memoryWords ≤ idx a ∧ h = .outOfRange) := by
  unfold memRead
  split
  · next hd => simp [hd, eq_comm]
  · next hd =>
    rw [Bool.not_eq_false] at hd
    split
    · simp [hd, eq_comm]; omega
    · simp [hd]; omega

theorem memWrite_error_iff {s : State} {a v : Word} {h : Halt} :
    memWrite s a v = .error h ↔
      (dataOk s.params.memAlignPolarity a = false ∧ h = .memoryAlignmentFault) ∨
      (dataOk s.params.memAlignPolarity a = true ∧ memoryWords ≤ idx a ∧ h = .outOfRange) := by
  unfold memWrite
  split
  · next hd => simp [hd, eq_comm]
  · next hd =>
    rw [Bool.not_eq_false] at hd
    split
    · simp [hd, eq_comm]; omega
    · simp [hd]; omega

/-- The low two bits are the address modulo 4. -/
theorem lowBits_eq_zero_iff {a : Word} : lowBits a = 0#2 ↔ a.toNat % 4 = 0 := by
  unfold lowBits
  rw [← BitVec.toNat_inj]
  simp [BitVec.extractLsb'_toNat]

/-- The word index is the address divided by 4. -/
theorem idx_eq_div (a : Word) : idx a = a.toNat / 4 := by
  simp [idx, BitVec.toNat_ushiftRight, Nat.shiftRight_eq_div_pow]

/-- The r3 field inside an immediate is the r3 field of its word. -/
theorem offsetR3_offsetField (w : Word) : offsetR3 (offsetField w) = r3Field w := by
  apply BitVec.eq_of_getElem_eq
  intro i hi
  simp only [offsetR3, offsetField, r3Field, BitVec.getElem_extractLsb', BitVec.getLsbD_extractLsb', Nat.zero_add]
  simp only [show 11 + i < 16 by omega, decide_true, Bool.true_and]

/-- A sum of multiples of 4 is a multiple of 4, wrapping included. -/
theorem lowBits_add {a b : Word} (ha : lowBits a = 0#2) (hb : lowBits b = 0#2) : lowBits (a + b) = 0#2 := by
  rw [lowBits_eq_zero_iff] at *
  rw [BitVec.toNat_add]
  omega

/-- Both targets of a control transfer keep a multiple of 4. -/
theorem lowBits_branchDisplacement (offset : BitVec 16) : lowBits (branchDisplacement offset) = 0#2 := by
  rw [branchDisplacement, lowBits_eq_zero_iff, BitVec.toNat_shiftLeft, Nat.shiftLeft_eq]
  omega

theorem lowBits_jumpTarget (npc : Word) (jsec : BitVec 26) : lowBits (jumpTarget npc jsec) = 0#2 := by
  unfold lowBits jumpTarget
  ext i hi
  have : i = 0 ∨ i = 1 := by omega
  rcases this with rfl | rfl <;> simp

end Sys2Proof.Machine
end

