-- ==== Sys2Proof/Laws/Exec.lean ====
section
/-! SUPPORT. What each shared meaning, `exec` and `step` can answer, said once: proofs about all instructions start from
these inversions and do not unfold the meanings. -/

namespace Sys2Proof.Machine

theorem aluToR3_next {op : AluOp} {r1 r2 r3 : RegIdx} {s t : State} :
    aluToR3 op r1 r2 r3 s = .next t ↔
      t = advancePc (writeReg r3 (aluResult op (readReg s r1) (readReg s r2)) s) := by
  simp [aluToR3, eq_comm]

/-- An ALU-immediate instruction writes one register or none, and moves on. -/
theorem aluImmediate_next {op : AluOp} {r1 : RegIdx} {offset : BitVec 16} {s t : State} :
    aluImmediate op r1 offset s = .next t ↔
      (s.params.immRegDst = false ∧ t = advancePc s) ∨
      (s.params.immRegDst = true ∧
        t = advancePc (writeReg (offsetR3 offset) (aluResult op (readReg s r1) (sext32 offset)) s)) := by
  unfold aluImmediate immWriteBack
  cases s.params.immRegDst <;> simp [eq_comm]

/-- The PC a branch-equal goes to. -/
def beqTarget (s : State) (r1 r2 : RegIdx) (offset : BitVec 16) : Word :=
  if readReg s r1 = readReg s r2 then s.pc + 4#32 + branchDisplacement offset else s.pc + 4#32

/-- The subtraction of the full words is zero exactly when they are equal (R221). -/
theorem zeroFlag_subtract (a b : Word) : zeroFlag (aluResult .subtract a b) = decide (a = b) := by
  have h : a - b = 0#32 ↔ a = b := by
    constructor
    · intro h; bv_omega
    · rintro rfl; exact BitVec.sub_self a
  simp [zeroFlag, aluResult, h]

theorem execBeq_eq (r1 r2 : RegIdx) (offset : BitVec 16) (s : State) :
    execBeq r1 r2 offset s = .next (setPc (beqTarget s r1 r2 offset) s) := by
  unfold execBeq beqTarget
  rw [zeroFlag_subtract]
  by_cases h : readReg s r1 = readReg s r2 <;> simp [h]

/-- Everything an instruction can answer with a next state: a register or none, the PC, and for sw one word of memory;
or, for lw and sw, the halt of their access. -/
theorem exec_next_cases {i : Instr} {s t : State} (h : exec i s = .next t) :
    (∃ r v, destination s.params i = some r ∧ t = advancePc (writeReg r v s)) ∨
    (destination s.params i = none ∧ dataAddress s i = none ∧ ∃ pc, t = setPc pc s) ∨
    (∃ r1 r2 o, i = .sw r1 r2 o ∧ dataOk s.params.memAlignPolarity (effectiveAddress s r1 o) = true ∧
      idx (effectiveAddress s r1 o) < memoryWords ∧
      t = advancePc (setMem (Memory.writeWord s.mem (idx (effectiveAddress s r1 o)) (readReg s r2)) s)) ∨
    (∃ a, dataAddress s i = some a ∧ dataOk s.params.memAlignPolarity a = false ∧ t = setHalt 4#3 s) := by
  have rtype : ∀ {op r1 r2 r3}, aluToR3 op r1 r2 r3 s = .next t → destination s.params i = some r3 →
      (∃ r v, destination s.params i = some r ∧ t = advancePc (writeReg r v s)) := fun h hd =>
    ⟨_, _, hd, aluToR3_next.1 h⟩
  have imm : ∀ {op r1 o}, aluImmediate op r1 o s = .next t →
      destination s.params i = (if s.params.immRegDst then some (offsetR3 o) else none) → dataAddress s i = none →
      (∃ r v, destination s.params i = some r ∧ t = advancePc (writeReg r v s)) ∨
      (destination s.params i = none ∧ dataAddress s i = none ∧ ∃ pc, t = setPc pc s) := fun h hd ha => by
    rcases aluImmediate_next.1 h with ⟨hp, ht⟩ | ⟨hp, ht⟩
    · exact .inr ⟨by rw [hd, hp]; rfl, ha, _, ht⟩
    · exact .inl ⟨_, _, by rw [hd, hp]; rfl, ht⟩
  have weaken : ∀ {i : Instr}, (∃ r v, destination s.params i = some r ∧ t = advancePc (writeReg r v s)) ∨
      (destination s.params i = none ∧ dataAddress s i = none ∧ ∃ pc, t = setPc pc s) →
      (∃ r v, destination s.params i = some r ∧ t = advancePc (writeReg r v s)) ∨
      (destination s.params i = none ∧ dataAddress s i = none ∧ ∃ pc, t = setPc pc s) ∨
      (∃ r1 r2 o, i = .sw r1 r2 o ∧ dataOk s.params.memAlignPolarity (effectiveAddress s r1 o) = true ∧
        idx (effectiveAddress s r1 o) < memoryWords ∧
        t = advancePc (setMem (Memory.writeWord s.mem (idx (effectiveAddress s r1 o)) (readReg s r2)) s)) ∨
      (∃ a, dataAddress s i = some a ∧ dataOk s.params.memAlignPolarity a = false ∧ t = setHalt 4#3 s) :=
    fun h => h.elim .inl (.inr ∘ .inl)
  cases i with
  | add r1 r2 r3 g => exact .inl (rtype h rfl)
  | sub r1 r2 r3 g => exact .inl (rtype h rfl)
  | and r1 r2 r3 g => exact .inl (rtype h rfl)
  | or r1 r2 r3 g => exact .inl (rtype h rfl)
  | slt r1 r2 r3 g => exact .inl (rtype h rfl)
  | sltu r1 r2 r3 g => exact .inl (rtype h rfl)
  | j jsec =>
    injection h with h
    exact .inr (.inl ⟨rfl, rfl, _, h.symm⟩)
  | beq r1 r2 o =>
    change execBeq r1 r2 o s = _ at h
    rw [execBeq_eq] at h
    injection h with h
    exact .inr (.inl ⟨rfl, rfl, _, h.symm⟩)
  | addi r1 r2 o => exact weaken (imm h rfl rfl)
  | slti r1 r2 o => exact weaken (imm h rfl rfl)
  | sltiu r1 r2 o => exact weaken (imm h rfl rfl)
  | lui r1 r2 o => exact weaken (imm h rfl rfl)
  | lw r1 r2 o =>
    change execLw r1 r2 o s = _ at h
    unfold execLw at h
    split at h
    · next e he =>
      obtain ⟨hne, ht⟩ := raiseHalt_next h
      rcases memRead_error_iff.1 he with ⟨hd, rfl⟩ | ⟨-, -, rfl⟩
      · exact .inr (.inr (.inr ⟨_, rfl, hd, ht⟩))
      · exact absurd rfl hne
    · injection h with h
      exact .inl ⟨_, _, rfl, h.symm⟩
  | sw r1 r2 o =>
    change execSw r1 r2 o s = _ at h
    unfold execSw at h
    split at h
    · next e he =>
      obtain ⟨hne, ht⟩ := raiseHalt_next h
      rcases memWrite_error_iff.1 he with ⟨hd, rfl⟩ | ⟨-, -, rfl⟩
      · exact .inr (.inr (.inr ⟨_, rfl, hd, ht⟩))
      · exact absurd rfl hne
    · next stored he =>
      injection h with h
      obtain ⟨hd, hi, rfl⟩ := memWrite_ok_iff.1 he
      exact .inr (.inr (.inl ⟨r1, r2, o, rfl, hd, hi, h.symm⟩))

/-- An instruction that answers a next state has made its data access, if it makes one, at a permitted and backed address,
and left HALT; or its access was not permitted, and HALT = 4 is the only change. -/
theorem exec_next_access {i : Instr} {s t : State} (h : exec i s = .next t) :
    (t.halt = s.halt ∧ ∀ a, dataAddress s i = some a →
      dataOk s.params.memAlignPolarity a = true ∧ idx a < memoryWords) ∨
    (∃ a, dataAddress s i = some a ∧ dataOk s.params.memAlignPolarity a = false ∧ t = setHalt 4#3 s) := by
  have noAccess : ∀ {i : Instr}, t.halt = s.halt → dataAddress s i = none →
      (t.halt = s.halt ∧ ∀ a, dataAddress s i = some a →
        dataOk s.params.memAlignPolarity a = true ∧ idx a < memoryWords) ∨
      (∃ a, dataAddress s i = some a ∧ dataOk s.params.memAlignPolarity a = false ∧ t = setHalt 4#3 s) :=
    fun ht hn => .inl ⟨ht, fun a e => by rw [hn] at e; cases e⟩
  have imm : ∀ {op r1 o}, aluImmediate op r1 o s = .next t → t.halt = s.halt := fun h => by
    rcases aluImmediate_next.1 h with ⟨-, rfl⟩ | ⟨-, rfl⟩ <;> rfl
  cases i with
  | add r1 r2 r3 g => exact noAccess (by rw [aluToR3_next.1 h]; rfl) rfl
  | sub r1 r2 r3 g => exact noAccess (by rw [aluToR3_next.1 h]; rfl) rfl
  | and r1 r2 r3 g => exact noAccess (by rw [aluToR3_next.1 h]; rfl) rfl
  | or r1 r2 r3 g => exact noAccess (by rw [aluToR3_next.1 h]; rfl) rfl
  | slt r1 r2 r3 g => exact noAccess (by rw [aluToR3_next.1 h]; rfl) rfl
  | sltu r1 r2 r3 g => exact noAccess (by rw [aluToR3_next.1 h]; rfl) rfl
  | j jsec => injection h with h; exact noAccess (by rw [← h]; rfl) rfl
  | beq r1 r2 o =>
    change execBeq r1 r2 o s = _ at h
    rw [execBeq_eq] at h
    injection h with h
    exact noAccess (by rw [← h]; rfl) rfl
  | addi r1 r2 o => exact noAccess (imm h) rfl
  | slti r1 r2 o => exact noAccess (imm h) rfl
  | sltiu r1 r2 o => exact noAccess (imm h) rfl
  | lui r1 r2 o => exact noAccess (imm h) rfl
  | lw r1 r2 o =>
    change execLw r1 r2 o s = _ at h
    unfold execLw at h
    split at h
    · next e he =>
      obtain ⟨hne, ht⟩ := raiseHalt_next h
      rcases memRead_error_iff.1 he with ⟨hd, rfl⟩ | ⟨-, -, rfl⟩
      · exact .inr ⟨_, rfl, hd, ht⟩
      · exact absurd rfl hne
    · next he =>
      injection h with h
      obtain ⟨hd, hi, -⟩ := memRead_ok_iff.1 he
      exact .inl ⟨by rw [← h]; rfl, fun a e => by cases e; exact ⟨hd, hi⟩⟩
  | sw r1 r2 o =>
    change execSw r1 r2 o s = _ at h
    unfold execSw at h
    split at h
    · next e he =>
      obtain ⟨hne, ht⟩ := raiseHalt_next h
      rcases memWrite_error_iff.1 he with ⟨hd, rfl⟩ | ⟨-, -, rfl⟩
      · exact .inr ⟨_, rfl, hd, ht⟩
      · exact absurd rfl hne
    · next he =>
      injection h with h
      obtain ⟨hd, hi, rfl⟩ := memWrite_ok_iff.1 he
      exact .inl ⟨by rw [← h]; rfl, fun a e => by cases e; exact ⟨hd, hi⟩⟩

/-- An instruction faults only with its access out of range, and is never refused. -/
theorem exec_not_next {i : Instr} {s : State} :
    (∃ t, exec i s = .next t) ∨
    (exec i s = .fault (.outOfRange (setHalt 5#3 s)) ∧
      ∃ a, dataAddress s i = some a ∧ dataOk s.params.memAlignPolarity a = true ∧ memoryWords ≤ idx a) := by
  cases i with
  | add r1 r2 r3 g => exact .inl ⟨_, rfl⟩
  | sub r1 r2 r3 g => exact .inl ⟨_, rfl⟩
  | and r1 r2 r3 g => exact .inl ⟨_, rfl⟩
  | or r1 r2 r3 g => exact .inl ⟨_, rfl⟩
  | slt r1 r2 r3 g => exact .inl ⟨_, rfl⟩
  | sltu r1 r2 r3 g => exact .inl ⟨_, rfl⟩
  | j jsec => exact .inl ⟨_, rfl⟩
  | beq r1 r2 o => exact .inl ⟨_, execBeq_eq r1 r2 o s⟩
  | addi r1 r2 o => exact .inl ⟨_, rfl⟩
  | slti r1 r2 o => exact .inl ⟨_, rfl⟩
  | sltiu r1 r2 o => exact .inl ⟨_, rfl⟩
  | lui r1 r2 o => exact .inl ⟨_, rfl⟩
  | lw r1 r2 o =>
    change (∃ t, execLw r1 r2 o s = _) ∨ (execLw r1 r2 o s = _ ∧ _)
    unfold execLw
    cases he : memRead s (effectiveAddress s r1 o) with
    | ok v => exact .inl ⟨_, rfl⟩
    | error e =>
      rcases memRead_error_iff.1 he with ⟨hd, rfl⟩ | ⟨hd, hi, rfl⟩
      · exact .inl ⟨_, rfl⟩
      · exact .inr ⟨rfl, _, rfl, hd, hi⟩
  | sw r1 r2 o =>
    change (∃ t, execSw r1 r2 o s = _) ∨ (execSw r1 r2 o s = _ ∧ _)
    unfold execSw
    cases he : memWrite s (effectiveAddress s r1 o) (readReg s r2) with
    | ok v => exact .inl ⟨_, rfl⟩
    | error e =>
      rcases memWrite_error_iff.1 he with ⟨hd, rfl⟩ | ⟨hd, hi, rfl⟩
      · exact .inl ⟨_, rfl⟩
      · exact .inr ⟨rfl, _, rfl, hd, hi⟩

/-- A step of a halted core, of a failing fetch, of a rejected word, or of an instruction: there is no other. -/
theorem step_cases (s : State) :
    (s.halt ≠ 0#3 ∧ step s = .next s) ∨
    (s.halt = 0#3 ∧ ∃ h, memFetch s s.pc = .error h ∧ step s = raiseHalt h s) ∨
    (s.halt = 0#3 ∧ ∃ w h, memFetch s s.pc = .ok w ∧ decode s.params.opcodeMap w = .error h ∧
      step s = raiseHalt h s) ∨
    (s.halt = 0#3 ∧ ∃ w i, memFetch s s.pc = .ok w ∧ decode s.params.opcodeMap w = .ok i ∧ step s = exec i s) := by
  by_cases hh : s.halt = 0#3
  · cases hf : memFetch s s.pc with
    | error h => exact .inr (.inl ⟨hh, h, rfl, by simp [step, hh, hf]⟩)
    | ok w =>
      cases hd : decode s.params.opcodeMap w with
      | error h => exact .inr (.inr (.inl ⟨hh, w, h, rfl, hd, by simp [step, hh, hf, hd]⟩))
      | ok i => exact .inr (.inr (.inr ⟨hh, w, i, rfl, hd, by simp [step, hh, hf, hd]⟩))
  · exact .inl ⟨hh, by simp [step, hh]⟩

/-- The decoder rejects by two names only. -/
theorem decode_error {m : OpcodeMap} {w : Word} {h : Halt} (e : decode m w = .error h) :
    h = .unsupportedOpcode ∨ h = .unrecognizedFunction := by
  unfold decode decodeRType at e
  repeat' split at e
  all_goals cases e
  · exact .inl rfl
  · exact .inr rfl

/-- One more cycle at the front of a run. -/
theorem run_succ {k : Nat} {s t : State} (h : step s = .next t) :
    Host.Core.run Sys2Proof.core (k + 1) s = Host.Core.run Sys2Proof.core k t := by
  have hc : Sys2Proof.core.step s = .next t := h
  simp only [Host.Core.run, hc]

theorem run_succ_fault {k : Nat} {s : State} {f : Fault} (h : step s = .fault f) :
    Host.Core.run Sys2Proof.core (k + 1) s = .fault f := by
  have hc : Sys2Proof.core.step s = .fault f := h
  simp only [Host.Core.run, hc]

end Sys2Proof.Machine
end

