-- ==== Sys2Proof/Laws/PerInstr.lean ====
section
/-! SUPPORT. What holds of every instruction as syntax, one lemma for each constructor: the word of an instruction is
classified as the class rule R66 gives it. -/

namespace Sys2Proof

/-- The class of an instruction (R66). -/
def Instr.opClass : Instr → OpClass
  | .add _ _ _ _ => .rType
  | .sub _ _ _ _ => .rType
  | .and _ _ _ _ => .rType
  | .or _ _ _ _ => .rType
  | .slt _ _ _ _ => .rType
  | .sltu _ _ _ _ => .rType
  | .j _ => .jump
  | .beq _ _ _ => .branchEqual
  | .addi _ _ _ => .addImmediate
  | .slti _ _ _ => .setLessThanImmediate
  | .sltiu _ _ _ => .setLessThanImmediateUnsigned
  | .lui _ _ _ => .loadUpperImmediate
  | .lw _ _ _ => .loadWord
  | .sw _ _ _ => .storeWord

namespace Laws.ClassOfWord

/-- Under every legal map, the opcode field of the instruction's word is classified as the instruction's class. -/
def Statement (i : Instr) : Prop :=
  ∀ m : OpcodeMap, m.Legal → m.classify (opField (encode m i)) = some i.opClass

theorem of_opField {i : Instr} (h : ∀ m : OpcodeMap, opField (encode m i) = m.opcode i.opClass) : Statement i :=
  fun m hm => (h m).symm ▸ m.classify_opcode hm i.opClass

theorem add (r1 r2 r3 : RegIdx) (ignored : BitVec 5) : Statement (.add r1 r2 r3 ignored) :=
  of_opField fun _ => opField_encodeR _ _ _ _ _ _

theorem sub (r1 r2 r3 : RegIdx) (ignored : BitVec 5) : Statement (.sub r1 r2 r3 ignored) :=
  of_opField fun _ => opField_encodeR _ _ _ _ _ _

theorem and (r1 r2 r3 : RegIdx) (ignored : BitVec 5) : Statement (.and r1 r2 r3 ignored) :=
  of_opField fun _ => opField_encodeR _ _ _ _ _ _

theorem or (r1 r2 r3 : RegIdx) (ignored : BitVec 5) : Statement (.or r1 r2 r3 ignored) :=
  of_opField fun _ => opField_encodeR _ _ _ _ _ _

theorem slt (r1 r2 r3 : RegIdx) (ignored : BitVec 5) : Statement (.slt r1 r2 r3 ignored) :=
  of_opField fun _ => opField_encodeR _ _ _ _ _ _

theorem sltu (r1 r2 r3 : RegIdx) (ignored : BitVec 5) : Statement (.sltu r1 r2 r3 ignored) :=
  of_opField fun _ => opField_encodeR _ _ _ _ _ _

theorem j (jsec : BitVec 26) : Statement (.j jsec) :=
  of_opField fun _ => opField_encodeJ _ _

theorem beq (r1 r2 : RegIdx) (offset : BitVec 16) : Statement (.beq r1 r2 offset) :=
  of_opField fun _ => opField_encodeI _ _ _ _

theorem addi (r1 r2 : RegIdx) (offset : BitVec 16) : Statement (.addi r1 r2 offset) :=
  of_opField fun _ => opField_encodeI _ _ _ _

theorem slti (r1 r2 : RegIdx) (offset : BitVec 16) : Statement (.slti r1 r2 offset) :=
  of_opField fun _ => opField_encodeI _ _ _ _

theorem sltiu (r1 r2 : RegIdx) (offset : BitVec 16) : Statement (.sltiu r1 r2 offset) :=
  of_opField fun _ => opField_encodeI _ _ _ _

theorem lui (r1 r2 : RegIdx) (offset : BitVec 16) : Statement (.lui r1 r2 offset) :=
  of_opField fun _ => opField_encodeI _ _ _ _

theorem lw (r1 r2 : RegIdx) (offset : BitVec 16) : Statement (.lw r1 r2 offset) :=
  of_opField fun _ => opField_encodeI _ _ _ _

theorem sw (r1 r2 : RegIdx) (offset : BitVec 16) : Statement (.sw r1 r2 offset) :=
  of_opField fun _ => opField_encodeI _ _ _ _

end Laws.ClassOfWord

end Sys2Proof
end

