-- ==== Sys2Proof/Laws/Run.lean ====
section
/-! SUPPORT. One cycle at the front of a run, by what it answers, and the runs of a halted core. -/

namespace Sys2Proof.Machine

@[simp] theorem report_halt (s : State) : s.report.halt = s.halt := rfl
@[simp] theorem report_pc (s : State) : s.report.pc = s.pc := rfl
@[simp] theorem report_x (s : State) : s.report.x = s.x := rfl
@[simp] theorem report_mem (s : State) : s.report.mem = s.mem := rfl

@[simp] theorem runEnd_zero (s : State) : runEnd 0 s = .outOfFuel := rfl

/-- A cycle that leaves the core running: the run goes on. -/
theorem runEnd_running {fuel : Nat} {s t : State} (h : step s = .next t) (ht : t.halt = 0#3) :
    runEnd (fuel + 1) s = runEnd fuel t := by
  simp only [runEnd, h, if_pos ht]

/-- A cycle that halts: the run ends there. -/
theorem runEnd_halting {fuel : Nat} {s t : State} (h : step s = .next t) (ht : t.halt ≠ 0#3) :
    runEnd (fuel + 1) s = .halted t.report := by
  simp only [runEnd, h, if_neg ht]

/-- A cycle that meets the model fault: the run ends there, without an outcome of the source's. -/
theorem runEnd_fault {fuel : Nat} {s final : State} (h : step s = .fault (.outOfRange final)) :
    runEnd (fuel + 1) s = .modelFault final.report := by
  simp only [runEnd, h]

/-- Everything the first cycle of a run can do. -/
theorem runEnd_succ_cases (fuel : Nat) (s : State) :
    (∃ t, step s = .next t ∧ t.halt = 0#3 ∧ runEnd (fuel + 1) s = runEnd fuel t) ∨
    (∃ t, step s = .next t ∧ t.halt ≠ 0#3 ∧ runEnd (fuel + 1) s = .halted t.report) ∨
    (∃ final, step s = .fault (.outOfRange final) ∧ runEnd (fuel + 1) s = .modelFault final.report) ∨
    (∃ r, step s = .refused r ∧ runEnd (fuel + 1) s = .refused r) := by
  cases h : step s with
  | next t =>
    by_cases ht : t.halt = 0#3
    · exact .inl ⟨t, rfl, ht, runEnd_running h ht⟩
    · exact .inr (.inl ⟨t, rfl, ht, runEnd_halting h ht⟩)
  | fault f => cases f with | outOfRange final => exact .inr (.inr (.inl ⟨final, rfl, runEnd_fault h⟩))
  | refused r => exact .inr (.inr (.inr ⟨r, rfl, by simp only [runEnd, h]⟩))

@[simp] theorem runsTo_zero {s t : State} : RunsTo 0 s t ↔ t = s :=
  ⟨fun h => by injection h with h; exact h.symm, fun h => h ▸ rfl⟩

theorem runsTo_succ {k : Nat} {s u t : State} (h : step s = .next u) : RunsTo (k + 1) s t ↔ RunsTo k u t := by
  unfold RunsTo; rw [run_succ h]

end Sys2Proof.Machine
end

