-- ==== Sys2Proof/Tests/Slice0.lean ====
section
/-! SUPPORT. The model's own tests: words written out from 30_encoding.md, single steps whose expected values are those of
95_test_vectors.md, and for each statement with hypotheses a state and operands that meet all of them. -/

namespace Sys2Proof.Machine.Tests

open Sys2Proof.Machine.Datapath

/-! Small states. -/

/-- A running state with the parameters `p`, the PC, a few registers and a few memory words. -/
def mk (p : Params) (pc : Word) (regs : List (RegIdx × Word)) (words : List (Nat × Word)) : State :=
  regs.foldl (fun s r => writeReg r.1 r.2 s)
    (words.foldl (fun s w => setMem (Memory.writeWord s.mem w.1 w.2) s)
      (setPc pc { State.reset with params := p }))

/-- IMM_REGDST = 1, everything else default. -/
def imm1 : Params := { defaultParams with immRegDst := true }

/-- MEM_ALIGN_POLARITY = CONVENTIONAL, everything else default. -/
def conventional : Params := { defaultParams with memAlignPolarity := .conventional }

/-- What a step or an instruction answers, seen through `f`, if it answers a next state. -/
def seen {α : Type} (f : State → α) : Host.Outcome State Fault Refusal → Option α
  | .next t => some (f t)
  | .fault _ => none
  | .refused _ => none

/-- (HALT, PC) of the state a model fault leaves to read. -/
def faultSeen : Host.Outcome State Fault Refusal → Option (BitVec 3 × Word)
  | .next _ => none
  | .fault (.outOfRange final) => some (final.halt, final.pc)
  | .refused _ => none

/-- x[r], PC and HALT. -/
def look (r : RegIdx) (t : State) : Word × Word × BitVec 3 := (readReg t r, t.pc, t.halt)

/-! WellFormed refuses a term with a nonzero unused field, one for each check. -/

theorem smoke_add : (Instr.add 1#5 2#5 3#5 0x1F#5).wellFormed = false := by decide
theorem smoke_sub : (Instr.sub 1#5 2#5 3#5 1#5).wellFormed = false := by decide
theorem smoke_and : (Instr.and 1#5 2#5 3#5 1#5).wellFormed = false := by decide
theorem smoke_or : (Instr.or 1#5 2#5 3#5 1#5).wellFormed = false := by decide
theorem smoke_slt : (Instr.slt 1#5 2#5 3#5 1#5).wellFormed = false := by decide
theorem smoke_sltu : (Instr.sltu 1#5 2#5 3#5 0x10#5).wellFormed = false := by decide
theorem smoke_lui : (Instr.lui 3#5 2#5 0x8000#16).wellFormed = false := by decide
theorem smoke_accepts : (Instr.add 1#5 2#5 3#5 0#5).wellFormed = true := by decide

/-! Decoding: each word written out in its fields, op, r1, r2, then r3, ignored and funct, or offset, or jsec. -/

theorem decode_add : decode OpcodeMap.default
    (0b000000#6 ++ 0b00001#5 ++ 0b00010#5 ++ 0b00011#5 ++ 0b11111#5 ++ 0b100000#6) = .ok (.add 1#5 2#5 3#5 31#5) := by
  decide
theorem decode_sub : decode OpcodeMap.default
    (0b000000#6 ++ 0b00100#5 ++ 0b00101#5 ++ 0b00110#5 ++ 0b00000#5 ++ 0b100010#6) = .ok (.sub 4#5 5#5 6#5 0#5) := by
  decide
theorem decode_and : decode OpcodeMap.default
    (0b000000#6 ++ 0b00001#5 ++ 0b00010#5 ++ 0b00011#5 ++ 0b00000#5 ++ 0b100100#6) = .ok (.and 1#5 2#5 3#5 0#5) := by
  decide
theorem decode_or : decode OpcodeMap.default
    (0b000000#6 ++ 0b00001#5 ++ 0b00010#5 ++ 0b00011#5 ++ 0b00000#5 ++ 0b100101#6) = .ok (.or 1#5 2#5 3#5 0#5) := by
  decide
theorem decode_slt : decode OpcodeMap.default
    (0b000000#6 ++ 0b11111#5 ++ 0b00010#5 ++ 0b10000#5 ++ 0b00000#5 ++ 0b101010#6) = .ok (.slt 31#5 2#5 16#5 0#5) := by
  decide
theorem decode_sltu : decode OpcodeMap.default
    (0b000000#6 ++ 0b00001#5 ++ 0b00010#5 ++ 0b00011#5 ++ 0b00000#5 ++ 0b101011#6) = .ok (.sltu 1#5 2#5 3#5 0#5) := by
  decide
theorem decode_j : decode OpcodeMap.default (0b000010#6 ++ 0x0000040#26) = .ok (.j 0x40#26) := by decide
theorem decode_beq : decode OpcodeMap.default
    (0b000100#6 ++ 0b00001#5 ++ 0b00010#5 ++ 0xFFFD#16) = .ok (.beq 1#5 2#5 0xFFFD#16) := by decide
theorem decode_addi : decode OpcodeMap.default
    (0b001000#6 ++ 0b00001#5 ++ 0b00010#5 ++ 0x0005#16) = .ok (.addi 1#5 2#5 5#16) := by decide
theorem decode_slti : decode OpcodeMap.default
    (0b001010#6 ++ 0b00001#5 ++ 0b00010#5 ++ 0x8000#16) = .ok (.slti 1#5 2#5 0x8000#16) := by decide
theorem decode_sltiu : decode OpcodeMap.default
    (0b001011#6 ++ 0b00001#5 ++ 0b00010#5 ++ 0xFFFF#16) = .ok (.sltiu 1#5 2#5 0xFFFF#16) := by decide
theorem decode_lui : decode OpcodeMap.default
    (0b001111#6 ++ 0b00011#5 ++ 0b00010#5 ++ 0x8000#16) = .ok (.lui 3#5 2#5 0x8000#16) := by decide
theorem decode_lw : decode OpcodeMap.default
    (0b100011#6 ++ 0b00001#5 ++ 0b00010#5 ++ 0x0009#16) = .ok (.lw 1#5 2#5 9#16) := by decide
theorem decode_sw : decode OpcodeMap.default
    (0b101011#6 ++ 0b00000#5 ++ 0b00010#5 ++ 0x0102#16) = .ok (.sw 0#5 2#5 0x102#16) := by decide
theorem decode_funct_0x21 : decode OpcodeMap.default 0x00221821#32 = .error .unrecognizedFunction := by decide
theorem decode_op_0x2F : decode OpcodeMap.default 0xBC000020#32 = .error .unsupportedOpcode := by decide
theorem encode_add : encode OpcodeMap.default (.add 1#5 2#5 3#5 0#5) = 0x00221820#32 := by decide
theorem encode_sw : encode OpcodeMap.default (.sw 0#5 2#5 9#16) = 0xAC020009#32 := by decide
theorem table_word_lw : decodeTableWord 32 0x8C220009 = some (.lw 1#5 2#5 9#16) := by decide

/-! R-type (95_test_vectors.md section 2.5). -/

theorem test_add_wraps : seen (look 3#5)
    (step (mk defaultParams 0 [(1#5, 0xFFFFFFFF#32), (2#5, 1#32), (3#5, 0xAAAAAAAA#32)] [(0, 0x00221820#32)])) =
    some (0#32, 4#32, 0#3) := by decide
theorem test_add_register_zero : seen (look 0#5)
    (step (mk defaultParams 4 [(1#5, 3#32), (2#5, 4#32)] [(1, 0x00220020#32)])) = some (7#32, 8#32, 0#3) := by decide
theorem test_sub_borrows : seen (look 3#5)
    (step (mk defaultParams 0 [(2#5, 1#32)] [(0, 0x00221822#32)])) = some (0xFFFFFFFF#32, 4#32, 0#3) := by decide
theorem test_sub_source_is_destination : seen (look 4#5)
    (step (mk defaultParams 0 [(4#5, 0x12345678#32)] [(0, 0x00842022#32)])) = some (0#32, 4#32, 0#3) := by decide
theorem test_and : seen (look 3#5)
    (step (mk defaultParams 0 [(1#5, 0xF0F0F0F0#32), (2#5, 0xFF00FF00#32)] [(0, 0x00221824#32)])) =
    some (0xF000F000#32, 4#32, 0#3) := by decide
theorem test_or : seen (look 3#5)
    (step (mk defaultParams 0 [(1#5, 0xF0F0F0F0#32), (2#5, 0x0F0F0000#32)] [(0, 0x00221825#32)])) =
    some (0xFFFFF0F0#32, 4#32, 0#3) := by decide
theorem test_slt_upper_half_ignored : seen (look 3#5)
    (step (mk defaultParams 0 [(1#5, 0x80000000#32), (3#5, 0xAAAAAAAA#32)] [(0, 0x0022182A#32)])) =
    some (0#32, 4#32, 0#3) := by decide
theorem test_slt_bit_15_is_the_sign : seen (look 3#5)
    (step (mk defaultParams 0 [(1#5, 0x00008000#32)] [(0, 0x0022182A#32)])) = some (1#32, 4#32, 0#3) := by decide
theorem test_sltu_less : seen (look 3#5)
    (step (mk defaultParams 0 [(1#5, 1#32), (2#5, 0xFFFFFFFF#32)] [(0, 0x0022182B#32)])) =
    some (1#32, 4#32, 0#3) := by decide
theorem test_sltu_not_less : seen (look 3#5)
    (step (mk defaultParams 0 [(1#5, 0xFFFFFFFF#32), (2#5, 1#32), (3#5, 0xAAAAAAAA#32)] [(0, 0x0022182B#32)])) =
    some (0#32, 4#32, 0#3) := by decide

/-! Jump and branch-equal (section 2.6). -/

theorem test_j : seen (look 0#5) (step (mk defaultParams 0x10 [] [(4, 0x08000040#32)])) =
    some (0#32, 0x100#32, 0#3) := by decide
theorem test_j_largest : seen (look 0#5) (step (mk defaultParams 0 [] [(0, 0x0BFFFFFF#32)])) =
    some (0#32, 0x0FFFFFFC#32, 0#3) := by decide
theorem test_beq_backward : seen (look 1#5)
    (step (mk defaultParams 0x20 [(1#5, 9#32), (2#5, 9#32)] [(8, 0x1022FFFD#32)])) = some (9#32, 0x18#32, 0#3) := by
  decide
theorem test_beq_equal_low_halves_only : seen (look 1#5)
    (step (mk defaultParams 0x20 [(1#5, 0x00010005#32), (2#5, 5#32)] [(8, 0x10220003#32)])) =
    some (0x00010005#32, 0x24#32, 0#3) := by decide

/-! ALU-immediate (section 2.7), under both values of IMM_REGDST. -/

theorem test_addi_writes_nothing : seen (fun t => (readReg t 0#5, readReg t 2#5, t.pc))
    (step (mk defaultParams 0 [(1#5, 10#32)] [(0, 0x20220005#32)])) = some (0#32, 0#32, 4#32) := by decide
theorem test_addi_imm1 : seen (look 4#5)
    (step (mk imm1 0 [(1#5, 0x7FFFFFFF#32)] [(0, 0x20222001#32)])) = some (0x80002000#32, 4#32, 0#3) := by decide
theorem test_slti_writes_nothing : seen (fun t => (readReg t 0#5, readReg t 2#5, t.pc))
    (step (mk defaultParams 0 [(1#5, 3#32)] [(0, 0x28220005#32)])) = some (0#32, 0#32, 4#32) := by decide
theorem test_slti_imm1 : seen (look 1#5)
    (step (mk imm1 0 [(1#5, 0x7FFF8000#32)] [(0, 0x28220800#32)])) = some (1#32, 4#32, 0#3) := by decide
theorem test_sltiu_writes_nothing : seen (fun t => (readReg t 31#5, readReg t 2#5, t.pc))
    (step (mk defaultParams 0 [(1#5, 5#32)] [(0, 0x2C22FFFF#32)])) = some (0#32, 0#32, 4#32) := by decide
theorem test_sltiu_imm1 : seen (look 31#5)
    (step (mk imm1 0 [(1#5, 5#32)] [(0, 0x2C22FFFF#32)])) = some (1#32, 4#32, 0#3) := by decide
theorem test_lui_writes_nothing : seen (fun t => (readReg t 2#5, t.pc))
    (step (mk defaultParams 0 [] [(0, 0x3C021234#32)])) = some (0#32, 4#32) := by decide
theorem test_lui_imm1 : seen (look 16#5)
    (step (mk imm1 0 [(3#5, 0xFFFFFFFF#32)] [(0, 0x3C628000#32)])) = some (0x80000000#32, 4#32, 0#3) := by decide

/-! Load word and store word (section 2.8), under both polarities. -/

theorem test_lw_base_overwritten : seen (look 1#5)
    (step (mk defaultParams 0 [(1#5, 0x20#32)] [(0, 0x8C210001#32), (8, 0xCAFEF00D#32)])) =
    some (0xCAFEF00D#32, 4#32, 0#3) := by decide
theorem test_lw_conventional : seen (look 2#5)
    (step (mk conventional 0 [] [(0, 0x8C220008#32), (2, 0xDEADBEEF#32)])) = some (0xDEADBEEF#32, 4#32, 0#3) := by
  decide
theorem test_sw_last_word : seen (fun t => (Memory.readWord t.mem 16383, t.pc))
    (step (mk defaultParams 0 [(1#5, 0xFFFC#32), (2#5, 7#32)] [(0, 0xAC220001#32)])) = some (7#32, 4#32) := by decide
theorem test_sw_of_zero_unlists : seen (fun t => (Memory.readWord t.mem 2, t.mem.length))
    (step (mk defaultParams 0 [] [(0, 0xAC020009#32), (2, 0xFFFFFFFF#32)])) = some (0#32, 3) := by decide

/-! Halts (sections 2.8 and 2.9): HALT, the PC as before. -/

theorem test_halt_misaligned_fetch : seen (look 0#5) (step (mk defaultParams 2 [] [(0, 0xFC000000#32)])) =
    some (0#32, 2#32, 1#3) := by decide
theorem test_halt_opcode_before_funct : seen (look 0#5) (step (mk defaultParams 0 [] [(0, 0xFC000020#32)])) =
    some (0#32, 0#32, 2#3) := by decide
theorem test_halt_zero_word : seen (look 0#5) (step (mk defaultParams 8 [] [])) = some (0#32, 8#32, 3#3) := by decide
theorem test_halt_lw_multiple_of_4 : seen (look 2#5)
    (step (mk defaultParams 0 [] [(0, 0x8C220008#32), (2, 0xDEADBEEF#32)])) = some (0#32, 0#32, 4#3) := by decide
theorem test_fault_lw_out_of_range : faultSeen (step (mk defaultParams 0 [] [(0, 0x8C22FFFF#32)])) =
    some (5#3, 0#32) := by decide
theorem test_sw_legality_before_range : seen (look 2#5)
    (step (mk defaultParams 0 [(1#5, 0x10000#32), (2#5, 7#32)] [(0, 0xAC220000#32)])) = some (7#32, 0#32, 4#3) := by
  decide
theorem test_fault_fetch_out_of_range : faultSeen (step (mk defaultParams 0x10000 [] [])) =
    some (5#3, 0x10000#32) := by decide
theorem test_halted_stays : seen (look 3#5)
    (step (setHalt 2#3 (mk defaultParams 0 [(1#5, 5#32)] [(0, 0x00221820#32)]))) = some (0#32, 0#32, 2#3) := by decide

/-! Reset and placing a word (section 2.10; log 7). -/

theorem test_reset_input : look 1#5 (State.resetInput (setHalt 4#3 (mk defaultParams 8 [(1#5, 5#32)] []))) =
    (0#32, 0#32, 0#3) := by decide
theorem test_reset_runs_placed_word : seen (look 0#5) (step (State.reset.withFetchWord 32 0x08000040)) =
    some (0#32, 0x100#32, 0#3) := by decide
theorem test_canonical : Memory.wf (mk defaultParams 0 [] [(0, 0x00221820#32), (16383, 0xFF#32)]).mem = true := by decide

/-! Runs (70_reset_and_hazards.md rule R343; section 3.4). -/

/-- (HALT, PC) of a run's outcome, if it has one. -/
def outcomeSeen : RunEnd → Option (BitVec 3 × Word)
  | .halted o => some (o.halt, o.pc)
  | .modelFault _ => none
  | .refused _ => none
  | .outOfFuel => none

theorem test_run_ends_at_first_halt :
    outcomeSeen (runImage 2 defaultParams [0xFC000000#32] (Vector.replicate 32 0#32)) = some (2#3, 0#32) := by decide
theorem test_run_model_fault : ∃ o, runEnd 1 (mk defaultParams 0x10000 [] []) = .modelFault o ∧ o.halt = 5#3 :=
  ⟨_, rfl, by decide⟩
theorem test_run_out_of_fuel :
    runImage 1 defaultParams [0x1000FFFF#32] (Vector.replicate 32 0#32) = .outOfFuel := by decide

/-! ALU vectors (section 2.1). -/

theorem test_alu_not : alu 0x0F0F0F0F#32 0#32 7#3 = (0xF0F0F0F0#32, false) := by decide
theorem test_alu_shift : alu 5#32 0x00010000#32 6#3 = (0#32, true) := by decide
theorem test_alu_narrow : alu 0x00007FFF#32 0x00008000#32 2#3 = (0#32, true) := by decide

/-! Witnesses: for each statement with hypotheses, values that meet all of them together, at the edge of their range
where they have one. -/

theorem witness_legal_map : OpcodeMap.default.Legal := by decide

/-- Rule R8 admits other maps than the default one. -/
theorem witness_another_legal_map :
    ({ OpcodeMap.default with rType := 0x3E#6, loadWord := 0x00#6 } : OpcodeMap).Legal := by decide

theorem witness_illegal_maps_are_refused :
    ¬({ OpcodeMap.default with jump := 0x3F#6 } : OpcodeMap).Legal ∧
    ¬({ OpcodeMap.default with jump := 0x23#6 } : OpcodeMap).Legal := by decide

theorem witness_EncodeOfDecode : decode OpcodeMap.default 0xAC020102#32 = .ok (.sw 0#5 2#5 0x102#16) := by decide

theorem witness_UnsupportedOpcodeHalts :
    (mk defaultParams 0xFFFC [] [(16383, 0xFFFFFFFF#32)]).halt = 0#3 ∧
    memFetch (mk defaultParams 0xFFFC [] [(16383, 0xFFFFFFFF#32)]) 0xFFFC#32 = .ok 0xFFFFFFFF#32 ∧
    ∀ c : OpClass, OpcodeMap.default.opcode c ≠ (0xFFFFFFFF#32).extractLsb' 26 6 :=
  ⟨by decide, by decide, fun c => by cases c <;> decide⟩

theorem witness_UnrecognizedFunctionHalts :
    (mk defaultParams 0 [] [(0, 0x0022183F#32)]).halt = 0#3 ∧
    memFetch (mk defaultParams 0 [] [(0, 0x0022183F#32)]) 0#32 = .ok 0x0022183F#32 ∧
    (0x0022183F#32).extractLsb' 26 6 = OpcodeMap.default.rType ∧
    (0x0022183F#32).extractLsb' 0 6 ∉ [0x20#6, 0x22#6, 0x24#6, 0x25#6, 0x2A#6, 0x2B#6] := by decide

theorem witness_UnusedFields_rtype :
    decode OpcodeMap.default 0x00221820#32 = .ok (.add 1#5 2#5 3#5 0#5) ∧
    decode OpcodeMap.default 0x00221FE0#32 = .ok (.add 1#5 2#5 3#5 31#5) ∧
    (0x00221820#32).extractLsb' 26 6 = (0x00221FE0#32).extractLsb' 26 6 ∧
    (0x00221820#32).extractLsb' 26 6 = OpcodeMap.default.rType ∧
    (0x00221820#32).extractLsb' 11 15 = (0x00221FE0#32).extractLsb' 11 15 ∧
    (0x00221820#32).extractLsb' 0 6 = (0x00221FE0#32).extractLsb' 0 6 := by decide

theorem witness_UnusedFields_lui :
    decode OpcodeMap.default 0x3C028000#32 = .ok (.lui 0#5 2#5 0x8000#16) ∧
    decode OpcodeMap.default 0x3FE28000#32 = .ok (.lui 31#5 2#5 0x8000#16) ∧
    (0x3C028000#32).extractLsb' 26 6 = OpcodeMap.default.loadUpperImmediate ∧
    (0x3FE28000#32).extractLsb' 26 6 = OpcodeMap.default.loadUpperImmediate ∧
    (0x3C028000#32).extractLsb' 0 21 = (0x3FE28000#32).extractLsb' 0 21 := by decide

theorem witness_UnusedFields_immediate :
    State.reset.params.immRegDst = false ∧
    decode OpcodeMap.default 0x20000000#32 = .ok (.addi 0#5 0#5 0#16) ∧
    decode OpcodeMap.default 0x23FFFFFF#32 = .ok (.addi 31#5 31#5 0xFFFF#16) ∧
    (0x23FFFFFF#32).extractLsb' 26 6 ∈ [OpcodeMap.default.addImmediate, OpcodeMap.default.setLessThanImmediate,
      OpcodeMap.default.setLessThanImmediateUnsigned, OpcodeMap.default.loadUpperImmediate] := by decide

/-- At the last word of memory. -/
theorem witness_StepRunsDecodedInstruction :
    (mk defaultParams 0xFFFC [] [(16383, 0x00221820#32)]).halt = 0#3 ∧ (0xFFFC#32).toNat % 4 = 0 ∧
    (0xFFFC#32).toNat < 65536 ∧
    decode OpcodeMap.default (Memory.readWord (mk defaultParams 0xFFFC [] [(16383, 0x00221820#32)]).mem
      ((0xFFFC#32).toNat / 4)) = .ok (.add 1#5 2#5 3#5 0#5) := by decide

theorem witness_FetchChecks :
    (0x00010001#32).toNat % 4 ≠ 0 ∧ ((0x00010000#32).toNat % 4 = 0 ∧ 16384 ≤ (0x00010000#32).toNat / 4) ∧
    ((0x0000FFFC#32).toNat % 4 = 0 ∧ (0x0000FFFC#32).toNat / 4 < 16384) := by decide

/-- A halted state with an unfetchable PC is among those the statement speaks of. -/
theorem witness_PlacedWordRunsNext :
    Memory.wf (setHalt 4#3 (mk defaultParams 0x10002 [] [(7, 7#32)])).mem = true ∧
    decode (setHalt 4#3 (mk defaultParams 0x10002 [] [(7, 7#32)])).params.opcodeMap 0x08000040#32 = .ok (.j 0x40#26) := by
  decide

theorem witness_HaltedCoreIsFrozen : (setHalt 1#3 State.reset).halt ≠ 0#3 := by decide

theorem witness_HaltingCycle :
    (∃ t, State.reset.halt = 0#3 ∧ step State.reset = .next t ∧ t.halt ≠ 0#3) ∧
    (∃ f, step (mk defaultParams 0x10000 [] []) = .fault f) :=
  ⟨⟨_, by decide, rfl, by decide⟩, ⟨_, rfl⟩⟩

theorem witness_HaltCodesHaveTheirCauses : ∃ t, State.reset.halt = 0#3 ∧ step State.reset = .next t :=
  ⟨_, by decide, rfl⟩

theorem witness_legal_state : State.reset.Legal := ⟨by decide, by decide, by decide, by decide⟩

theorem witness_StepKeepsLegality : ∃ t, State.reset.Legal ∧ step State.reset = .next t :=
  ⟨_, witness_legal_state, rfl⟩

theorem witness_LaunchHoldsTheImage :
    defaultParams.opcodeMap.Legal ∧ defaultParams.pc0.toNat % 4 = 0 ∧ [0x00221820#32, 0xFC000000#32].length ≤ 16384 := by
  decide

theorem witness_RunEndsLegal : State.reset.Legal ∧ State.reset.halt.toNat ≤ 4 := ⟨witness_legal_state, by decide⟩

theorem witness_MisalignedFetchOnlyInFirstCycle :
    ∃ t, State.reset.pc.toNat % 4 = 0 ∧ State.reset.halt ≠ 1#3 ∧ RunsTo 2 State.reset t :=
  ⟨_, by decide, by decide, rfl⟩

theorem witness_RunEndsAtFirstHalt :
    State.reset.halt = 0#3 ∧ (∃ o, runEnd 1 State.reset = .halted o) ∧ runEnd 0 State.reset = .outOfFuel :=
  ⟨by decide, ⟨_, rfl⟩, rfl⟩

theorem witness_LargerFuel : runEnd 1 State.reset ≠ .outOfFuel := by decide

/-- At the last word of memory, with a register that is not 0. -/
theorem witness_SelfBranchNeverEnds :
    (mk defaultParams 0xFFFC [(1#5, 7#32)] [(16383, 0x1021FFFF#32)]).halt = 0#3 ∧ (0xFFFC#32).toNat % 4 = 0 ∧
    (0xFFFC#32).toNat < 65536 ∧
    decode OpcodeMap.default (Memory.readWord (mk defaultParams 0xFFFC [(1#5, 7#32)] [(16383, 0x1021FFFF#32)]).mem
      ((0xFFFC#32).toNat / 4)) = .ok (.beq 1#5 1#5 0xFFFF#16) := by decide

theorem witness_encoding_rtype :
    (0x00221820#32).extractLsb' 26 6 = OpcodeMap.default.rType ∧ (0x00221820#32).extractLsb' 0 6 = 0x20#6 ∧
    (0x00221822#32).extractLsb' 26 6 = OpcodeMap.default.rType ∧ (0x00221822#32).extractLsb' 0 6 = 0x22#6 ∧
    (0x00221824#32).extractLsb' 26 6 = OpcodeMap.default.rType ∧ (0x00221824#32).extractLsb' 0 6 = 0x24#6 ∧
    (0x00221825#32).extractLsb' 26 6 = OpcodeMap.default.rType ∧ (0x00221825#32).extractLsb' 0 6 = 0x25#6 ∧
    (0x0022182A#32).extractLsb' 26 6 = OpcodeMap.default.rType ∧ (0x0022182A#32).extractLsb' 0 6 = 0x2A#6 ∧
    (0x0022182B#32).extractLsb' 26 6 = OpcodeMap.default.rType ∧ (0x0022182B#32).extractLsb' 0 6 = 0x2B#6 := by decide

theorem witness_encoding_others :
    (0x08000040#32).extractLsb' 26 6 = OpcodeMap.default.jump ∧
    (0x10220003#32).extractLsb' 26 6 = OpcodeMap.default.branchEqual ∧
    (0x20220005#32).extractLsb' 26 6 = OpcodeMap.default.addImmediate ∧
    (0x28220005#32).extractLsb' 26 6 = OpcodeMap.default.setLessThanImmediate ∧
    (0x2C22FFFF#32).extractLsb' 26 6 = OpcodeMap.default.setLessThanImmediateUnsigned ∧
    (0x3C021234#32).extractLsb' 26 6 = OpcodeMap.default.loadUpperImmediate ∧
    (0x8C220009#32).extractLsb' 26 6 = OpcodeMap.default.loadWord ∧
    (0xAC020009#32).extractLsb' 26 6 = OpcodeMap.default.storeWord := by decide

/-- Both values of IMM_REGDST, for the four ALU-immediate statements and their frame. -/
theorem witness_both_regdst :
    (mk defaultParams 0 [] []).params.immRegDst = false ∧ (mk imm1 0 [] []).params.immRegDst = true := by decide

/-- The three clauses of lw and sw, at the last word, at a multiple of 4 above memory, and just past memory. -/
theorem witness_LwResult_SwResult :
    (0x0000FFFF#32 = readReg (mk defaultParams 0 [(1#5, 0xFFFE#32)] []) 1#5 + (1#16).signExtend 32 ∧
      dataOk .inverted 0x0000FFFF#32 = true ∧ (0x0000FFFF#32).toNat / 4 < 16384) ∧
    (0x00010000#32 = readReg (mk defaultParams 0 [(1#5, 0xFFFF#32)] []) 1#5 + (1#16).signExtend 32 ∧
      dataOk .inverted 0x00010000#32 = false) ∧
    (0x00010001#32 = readReg (mk defaultParams 0 [(1#5, 0x10000#32)] []) 1#5 + (1#16).signExtend 32 ∧
      dataOk .inverted 0x00010001#32 = true ∧ 16384 ≤ (0x00010001#32).toNat / 4) := by decide

/-- The same under CONVENTIONAL. -/
theorem witness_LwResult_SwResult_conventional :
    (dataOk .conventional 0x0000FFFC#32 = true ∧ (0x0000FFFC#32).toNat / 4 < 16384) ∧
    dataOk .conventional 0x0000FFFD#32 = false ∧
    (dataOk .conventional 0x00010000#32 = true ∧ 16384 ≤ (0x00010000#32).toNat / 4) := by decide

theorem witness_RTypeFrame : ∃ t, exec (.add 1#5 2#5 0#5 0#5) State.reset = .next t := ⟨_, rfl⟩
theorem witness_ControlTransferFrame :
    (∃ t, exec (.j 1#26) State.reset = .next t) ∧ ∃ t, exec (.beq 0#5 0#5 0xFFFF#16) State.reset = .next t :=
  ⟨⟨_, rfl⟩, ⟨_, rfl⟩⟩
theorem witness_ImmediateFrame :
    (∃ t, exec (.addi 1#5 2#5 0xFFFF#16) (mk imm1 0 [] []) = .next t) ∧
    ∃ t, exec (.lui 1#5 2#5 0xFFFF#16) (mk defaultParams 0 [] []) = .next t :=
  ⟨⟨_, rfl⟩, ⟨_, rfl⟩⟩

theorem witness_LoadFrame :
    (∃ t, exec (.lw 1#5 2#5 9#16) State.reset = .next t ∧ dataOk .inverted (effectiveAddress State.reset 1#5 9#16) = true) ∧
    (∃ t, exec (.lw 1#5 2#5 8#16) State.reset = .next t ∧
      dataOk .inverted (effectiveAddress State.reset 1#5 8#16) = false) :=
  ⟨⟨_, rfl, by decide⟩, ⟨_, rfl, by decide⟩⟩

theorem witness_StoreFrame :
    (∃ t, exec (.sw 1#5 2#5 9#16) State.reset = .next t ∧ dataOk .inverted (effectiveAddress State.reset 1#5 9#16) = true ∧
      7 < 4 * idx (effectiveAddress State.reset 1#5 9#16) ∧ 4 * idx (effectiveAddress State.reset 1#5 9#16) + 4 ≤ 12) ∧
    (∃ t, exec (.sw 1#5 2#5 8#16) State.reset = .next t ∧
      dataOk .inverted (effectiveAddress State.reset 1#5 8#16) = false) :=
  ⟨⟨_, rfl, by decide, by decide, by decide⟩, ⟨_, rfl, by decide⟩⟩

theorem witness_OnlyTheDestinationRegisterChanges :
    ∃ t, step (mk defaultParams 0 [(1#5, 5#32), (2#5, 7#32)] [(0, 0x00221820#32)]) = .next t ∧
      readReg t 3#5 ≠ readReg (mk defaultParams 0 [(1#5, 5#32), (2#5, 7#32)] [(0, 0x00221820#32)]) 3#5 :=
  ⟨_, rfl, by decide⟩

theorem witness_OnlyStoreWordChangesMemory :
    ∃ t, step (mk defaultParams 0 [(2#5, 0x55#32)] [(0, 0xAC020009#32)]) = .next t ∧
      Memory.getByte t.mem 8 ≠ Memory.getByte (mk defaultParams 0 [(2#5, 0x55#32)] [(0, 0xAC020009#32)]).mem 8 :=
  ⟨_, rfl, by decide⟩

theorem witness_LoadAfterStore :
    ∃ t, Memory.wf State.reset.mem = true ∧ exec (.sw 0#5 2#5 9#16) State.reset = .next t ∧
      dataOk .inverted (effectiveAddress State.reset 0#5 9#16) = true ∧
      idx (effectiveAddress t 0#5 11#16) = idx (effectiveAddress State.reset 0#5 9#16) ∧
      dataOk t.params.memAlignPolarity (effectiveAddress t 0#5 11#16) = true :=
  ⟨_, by decide, rfl, by decide, by decide, by decide⟩

theorem witness_StoreIsSeenByNextFetch :
    ∃ t, Memory.wf (mk defaultParams 0 [(2#5, 0x00221820#32)] []).mem = true ∧
      (mk defaultParams 0 [(2#5, 0x00221820#32)] []).halt = 0#3 ∧
      exec (.sw 0#5 2#5 5#16) (mk defaultParams 0 [(2#5, 0x00221820#32)] []) = .next t ∧
      dataOk .inverted (effectiveAddress (mk defaultParams 0 [(2#5, 0x00221820#32)] []) 0#5 5#16) = true ∧
      t.pc.toNat % 4 = 0 ∧ idx t.pc = idx (effectiveAddress (mk defaultParams 0 [(2#5, 0x00221820#32)] []) 0#5 5#16) ∧
      decode OpcodeMap.default (readReg (mk defaultParams 0 [(2#5, 0x00221820#32)] []) 2#5) =
        .ok (.add 1#5 2#5 3#5 0#5) :=
  ⟨_, by decide, by decide, rfl, by decide, by decide, by decide, by decide⟩

theorem witness_NarrowSignedLessThan :
    (0x00018000#32).extractLsb' 0 16 = (0x7FFF8000#32).extractLsb' 0 16 := by decide

theorem witness_SignExtensionHalves : (0x8000#16).getLsbD 15 = true ∧ (0x7FFF#16).getLsbD 15 = false := by decide

theorem witness_ControlTableProperties :
    controlUnit defaultParams 0x23#6 = .ok (controlRow defaultParams .loadWord) ∧
    controlUnit imm1 0x08#6 = .ok (controlRow imm1 .addImmediate) := by decide

theorem witness_NoWordSelectsNot :
    controlUnit defaultParams (instructionDecoder 0x3C021234#32).op = .ok (controlRow defaultParams .loadUpperImmediate) ∧
    aluControlResolver (controlRow defaultParams .loadUpperImmediate).aluOp (instructionDecoder 0x3C021234#32).funct =
      .ok 6#3 := by decide

theorem witness_ResolverTable :
    6#3 ≠ 7#3 ∧ 0x3F#6 ∉ [0x20#6, 0x22#6, 0x24#6, 0x25#6, 0x2A#6, 0x2B#6] := by decide

/-- The rows of rule R128, those no class produces included. -/
theorem witness_WriteBackTable :
    ((controlRow defaultParams .loadWord).regWrite = 1#1 ∧ (controlRow defaultParams .loadWord).memtoReg = 1#1 ∧
      (controlRow defaultParams .loadWord).regDst = 0#2) ∧
    ((controlRow defaultParams .rType).regWrite = 1#1 ∧ (controlRow defaultParams .rType).memtoReg = 0#1 ∧
      (controlRow defaultParams .rType).regDst = 1#2) ∧
    (controlRow defaultParams .storeWord).regWrite = 0#1 ∧
    ((controlRow defaultParams .addImmediate).memtoReg = 0#1 ∧ (controlRow defaultParams .addImmediate).regDst = 0#2) ∧
    (({ controlRow defaultParams .loadWord with regDst := 1#2 } : ControlSignals).memtoReg = 1#1 ∧
      ({ controlRow defaultParams .loadWord with regDst := 1#2 } : ControlSignals).regDst = 1#2) ∧
    2 ≤ ({ controlRow defaultParams .rType with regDst := 2#2 } : ControlSignals).regDst.toNat ∧
    2 ≤ ({ controlRow defaultParams .rType with regDst := 3#2 } : ControlSignals).regDst.toNat := by decide

theorem witness_PcUpdateIsSequential : (0xFFFFFFFC#32).toNat % 4 = 0 := by decide

theorem witness_DataReadChecks :
    dataOk .inverted 0x0000FFFC#32 = false ∧ (dataOk .inverted 0x00010001#32 = true ∧ 65536 ≤ (0x00010001#32).toNat) ∧
    (dataOk .inverted 0x0000FFFF#32 = true ∧ (0x0000FFFF#32).toNat < 65536) := by decide

theorem witness_DataWriteReplacesOneWord :
    dataOk .inverted 0x00000000#32 = false ∧ (dataOk .inverted 0x00010001#32 = true ∧ 65536 ≤ (0x00010001#32).toNat) ∧
    (dataOk .inverted 0x0000FFFF#32 = true ∧ (0x0000FFFF#32).toNat < 65536 ∧ Memory.wf State.reset.mem = true) := by
  decide

end Sys2Proof.Machine.Tests
end

section
/-! The two concatenations of 30_encoding.md rules R63 and R65, each said once of the model's own function, and the
statements about their fields, which read the parts of a concatenation. -/

namespace Sys2Proof.Machine

/-- Rule R63 as it is written: sixteen copies of bit 15 above the offset. -/
theorem sext32_eq_append (offset : BitVec 16) :
    sext32 offset = (if offset.msb then 0xFFFF#16 else 0x0000#16) ++ offset :=
  BitVec.signExtend_eq_append_of_le (by decide)

theorem lowerHalf_sext32 (offset : BitVec 16) : (sext32 offset).extractLsb' 0 16 = offset := by
  rw [sext32_eq_append]
  exact BitVec.extractLsb'_append_eq_right

theorem upperHalf_sext32 (offset : BitVec 16) :
    (sext32 offset).extractLsb' 16 16 = if offset.getLsbD 15 then 0xFFFF#16 else 0x0000#16 := by
  rw [sext32_eq_append, BitVec.msb_eq_getLsbD_last]
  exact BitVec.extractLsb'_append_eq_left

/-- The shifted jsec of rule R65: its 26 bits between four zeros and two zeros. -/
theorem shiftedJsec_eq_append (jsec : BitVec 26) : jsec.setWidth 32 <<< 2 = 0#4 ++ (jsec ++ 0#2) := by
  calc jsec.setWidth 32 <<< 2
      = (jsec ++ 0#2).setWidth 32 := by
        rw [BitVec.setWidth_append_eq_shiftLeft_setWidth_or, BitVec.setWidth_zero, BitVec.or_zero]
    _ = 0#4 ++ (jsec ++ 0#2) := BitVec.setWidth_eq_append (by decide)

/-- The mask of rule R65 keeps the top four bits and clears the rest. -/
theorem and_topFourBits_eq_append (npc : Word) : npc &&& 0xF0000000#32 = npc.extractLsb' 28 4 ++ 0#28 := by
  calc npc &&& 0xF0000000#32
      = (npc.extractLsb' 28 4 ++ npc.extractLsb' 0 28) &&& (BitVec.allOnes 4 ++ 0#28) := by
        rw [BitVec.extractLsb'_append_extractLsb']; rfl
    _ = npc.extractLsb' 28 4 ++ 0#28 := by
        rw [BitVec.and_append, BitVec.and_allOnes, BitVec.and_zero]

/-- Rule R65 as a concatenation: no part of the OR overlaps another. -/
theorem jumpTarget_eq_append (npc : Word) (jsec : BitVec 26) :
    jumpTarget npc jsec = npc.extractLsb' 28 4 ++ (jsec ++ 0#2) := by
  rw [jumpTarget, shiftedJsec_eq_append, and_topFourBits_eq_append, BitVec.or_append, BitVec.zero_or, BitVec.or_zero]

theorem jsecBits_jumpTarget (npc : Word) (jsec : BitVec 26) : (jumpTarget npc jsec).extractLsb' 2 26 = jsec := by
  rw [jumpTarget_eq_append, BitVec.extractLsb'_append_eq_of_add_le (by decide)]
  exact BitVec.extractLsb'_append_eq_left

theorem topBits_jumpTarget (npc : Word) (jsec : BitVec 26) :
    (jumpTarget npc jsec).extractLsb' 28 4 = npc.extractLsb' 28 4 := by
  rw [jumpTarget_eq_append]
  exact BitVec.extractLsb'_append_eq_left

/-- Settles O47, by reading the two parts of the concatenation `sext32_eq_append`. -/
theorem signExtensionHalves : Obligations.SignExtensionHalves := by
  intro offset
  refine ⟨lowerHalf_sext32 offset, fun hset => ?_, fun hclear => ?_⟩
  · rw [upperHalf_sext32, if_pos hset]
  · rw [upperHalf_sext32, if_neg (Bool.eq_false_iff.mp hclear)]

/-- Settles O48: the fields of a jump target, for whatever incremented PC; its low bits are `lowBits_jumpTarget`. -/
theorem jumpTargetBits : Obligations.JumpTargetBits := by
  intro pc jsec
  exact ⟨jsecBits_jumpTarget (pc + 4#32) jsec, lowBits_jumpTarget (pc + 4#32) jsec, topBits_jumpTarget (pc + 4#32) jsec⟩

end Sys2Proof.Machine
end

section
/-! Three combinational units of 40_datapath.md, each described once by its ports: the ALU (rules R101 to R110), the
ALUControlResolver (R121) and the WriteBackUnit (R128). -/

namespace Sys2Proof.Machine.Datapath

/-! The ALU. -/

@[simp] theorem zeroFlag_eq_true_iff (result : Word) : zeroFlag result = true ↔ result = 0#32 :=
  decide_eq_true_iff

@[simp] theorem boolWord_eq_zero_iff (c : Bool) : boolWord c = 0#32 ↔ c = false := by
  cases c <;> decide

/-- A comparison's word is 0 or 1. -/
theorem boolWord_eq_zero_iff_ne_one (c : Bool) : boolWord c = 0#32 ↔ boolWord c ≠ 1#32 := by
  cases c <;> decide

/-- Zero looks at the Result alone, whatever the code (R110). -/
theorem alu_zero (a b : Word) (code : BitVec 3) : (alu a b code).2 = true ↔ (alu a b code).1 = 0#32 :=
  zeroFlag_eq_true_iff _

/-- Code 1 selects the subtraction, whose flag is known from beq. -/
theorem alu_subtract_zero (a b : Word) : (alu a b 1#3).2 = true ↔ a = b := by
  have hsub : (alu a b 1#3).2 = decide (a = b) := zeroFlag_subtract a b
  rw [hsub, decide_eq_true_iff]

theorem alu_signedLessThan_zero (a b : Word) : (alu a b 2#3).2 = true ↔ (alu a b 2#3).1 ≠ 1#32 :=
  (alu_zero a b 2#3).trans (boolWord_eq_zero_iff_ne_one (narrowSignedLess a b))

theorem alu_unsignedLessThan (a b : Word) : (alu a b 3#3).1 = boolWord (decide (a.toNat < b.toNat)) := rfl

theorem alu_unsignedLessThan_eq_ite (a b : Word) :
    (alu a b 3#3).1 = if a.toNat < b.toNat then 1#32 else 0#32 := by
  simp only [alu_unsignedLessThan, boolWord, decide_eq_true_eq]

theorem alu_unsignedLessThan_zero (a b : Word) : (alu a b 3#3).2 = true ↔ ¬ a.toNat < b.toNat := by
  rw [alu_zero, alu_unsignedLessThan, boolWord_eq_zero_iff, decide_eq_false_iff_not]

/-- Rule R108 as a concatenation. -/
theorem alu_shiftLeft16 (a b : Word) : (alu a b 6#3).1 = b.extractLsb' 0 16 ++ 0#16 :=
  BitVec.shiftLeft_eq_concat_of_lt (by decide)

theorem alu_not (a b : Word) : (alu a b 7#3).1 = ~~~a := rfl

theorem alu_not_zero (a b : Word) : (alu a b 7#3).2 = true ↔ a = 0xFFFFFFFF#32 := by
  rw [alu_zero, alu_not]
  exact BitVec.not_eq_comm

/-- Settles O45. The sums, AND and OR are the model's own operations; every claim about Zero goes through `alu_zero`. -/
theorem aluOperations : Obligations.AluOperations := by
  intro a b
  exact ⟨rfl, rfl, alu_subtract_zero a b, alu_unsignedLessThan_eq_ite a b, rfl, rfl, alu_shiftLeft16 a b, alu_not a b,
    alu_zero a b, alu_signedLessThan_zero a b, alu_unsignedLessThan_zero a b, alu_not_zero a b⟩

/-! The ALUControlResolver. -/

theorem aluControlResolver_of_ne_seven {aluOp : BitVec 3} (funct : BitVec 6) (h : aluOp ≠ 7#3) :
    aluControlResolver aluOp funct = .ok aluOp :=
  if_neg h

/-- The halt of rule R121 is the last branch of the funct table: none of the six tests succeeds. -/
theorem aluControlResolver_of_not_mem {funct : BitVec 6}
    (h : funct ∉ [0x20#6, 0x22#6, 0x24#6, 0x25#6, 0x2A#6, 0x2B#6]) :
    aluControlResolver 7#3 funct = .error .unrecognizedFunction := by
  simp only [List.mem_cons, List.not_mem_nil, or_false, not_or] at h
  obtain ⟨hadd, hsub, hand, hor, hslt, hsltu⟩ := h
  rw [aluControlResolver, if_pos rfl, if_neg hadd, if_neg hsub, if_neg hand, if_neg hor, if_neg hslt, if_neg hsltu]

/-- Settles O52: the two general clauses by the lemmas above, the six rows of the funct table by evaluation. -/
theorem resolverTable : Obligations.ResolverTable :=
  ⟨fun _ funct h => aluControlResolver_of_ne_seven funct h, rfl, rfl, rfl, rfl, rfl, rfl,
    fun _ h => aluControlResolver_of_not_mem h⟩

/-! The WriteBackUnit. -/

section
variable {ctl : ControlSignals} (f : Fields) (memdata result : Word) (s : State)

theorem writeBack_memdata (hwrite : ctl.regWrite = 1#1) (hload : ctl.memtoReg = 1#1) (hdst : ctl.regDst = 0#2) :
    writeBack ctl f memdata result s = writeReg f.r2 memdata s := by
  rw [writeBack, if_pos hwrite, if_pos ⟨hload, hdst⟩]

theorem writeBack_result (hwrite : ctl.regWrite = 1#1) (halu : ctl.memtoReg = 0#1) (hdst : ctl.regDst = 1#2) :
    writeBack ctl f memdata result s = writeReg f.r3 result s := by
  have hload : ¬(ctl.memtoReg = 1#1 ∧ ctl.regDst = 0#2) := by simp [halu]
  rw [writeBack, if_pos hwrite, if_neg hload, if_pos ⟨halu, hdst⟩]

/-- Nothing is written where MemtoReg and RegDst name neither of the two writes of rule R128. -/
theorem writeBack_eq_self (hload : ¬(ctl.memtoReg = 1#1 ∧ ctl.regDst = 0#2))
    (halu : ¬(ctl.memtoReg = 0#1 ∧ ctl.regDst = 1#2)) : writeBack ctl f memdata result s = s := by
  rw [writeBack, if_neg hload, if_neg halu, ite_self]

theorem writeBack_of_regWrite_zero (h : ctl.regWrite = 0#1) : writeBack ctl f memdata result s = s := by
  have hwrite : ctl.regWrite ≠ 1#1 := by simp [h]
  rw [writeBack, if_neg hwrite]

/-- RegDst 2 and 3 select no register, whatever the other two signals are. -/
theorem writeBack_of_two_le_regDst (h : 2 ≤ ctl.regDst.toNat) : writeBack ctl f memdata result s = s := by
  apply writeBack_eq_self
  · rintro ⟨-, hdst⟩
    simp [hdst] at h
  · rintro ⟨-, hdst⟩
    simp [hdst] at h

end

/-- Settles O53: the two writes, and the no-ops by the signal that excludes both of them. -/
theorem writeBackTable : Obligations.WriteBackTable := by
  intro ctl f memdata result s
  refine ⟨writeBack_memdata f memdata result s, writeBack_result f memdata result s,
    writeBack_of_regWrite_zero f memdata result s, fun halu hdst => ?_, fun hload hdst => ?_,
    writeBack_of_two_le_regDst f memdata result s⟩
  · exact writeBack_eq_self f memdata result s (by simp [halu]) (by simp [hdst])
  · exact writeBack_eq_self f memdata result s (by simp [hdst]) (by simp [hload])

end Sys2Proof.Machine.Datapath
end

section
/-! The R-type words that 41_rtype.md rule R206 rejects: what the decoder answers to them, and the cycle that fetches
one. -/

namespace Sys2Proof

/-- The R-type class stands first in rule R66, so its opcode is classified as R-type under every map, legal or not. -/
@[simp] theorem OpcodeMap.classify_rType (m : OpcodeMap) : m.classify m.rType = some .rType :=
  if_pos rfl

/-- The rejection of rule R69 is the last branch of the funct table: none of the six tests succeeds. -/
theorem decodeRType_of_not_mem {w : Word}
    (h : functField w ∉ [0x20#6, 0x22#6, 0x24#6, 0x25#6, 0x2A#6, 0x2B#6]) :
    decodeRType w = .error .unrecognizedFunction := by
  simp only [List.mem_cons, List.not_mem_nil, or_false, not_or] at h
  obtain ⟨hadd, hsub, hand, hor, hslt, hsltu⟩ := h
  rw [decodeRType, if_neg hadd, if_neg hsub, if_neg hand, if_neg hor, if_neg hslt, if_neg hsltu]

/-- A word with the R-type opcode is decoded by its funct field. -/
theorem decode_of_rType {m : OpcodeMap} {w : Word} (h : opField w = m.rType) : decode m w = decodeRType w := by
  simp only [decode, h, OpcodeMap.classify_rType]

end Sys2Proof

namespace Sys2Proof.Machine

/-- A running core that fetches a word the decoder rejects takes the decoder's halt. -/
theorem step_of_decode_error {s : State} {w : Word} {h : Halt} (hrun : s.halt = 0#3) (hfetch : memFetch s s.pc = .ok w)
    (hdecode : decode s.params.opcodeMap w = .error h) : step s = raiseHalt h s := by
  simp [step, hrun, hfetch, hdecode]

/-- Settles O5. The resolver's halt is its own lemma, as the R-type row has ALUOp 7; the cycle is that of a rejected
word. -/
theorem unrecognizedFunctionHalts : Obligations.UnrecognizedFunctionHalts := by
  intro s w hrun hfetch hop hfunct
  have hdecode : decode s.params.opcodeMap w = .error .unrecognizedFunction :=
    (decode_of_rType hop).trans (decodeRType_of_not_mem hfunct)
  exact ⟨Datapath.aluControlResolver_of_not_mem hfunct, step_of_decode_error hrun hfetch hdecode⟩

end Sys2Proof.Machine
end

section
/-! The decoder by opcode classes (30_encoding.md rules R66 to R68): what it answers once the class of the opcode is
known, and that decoding and encoding undo each other. -/

namespace Sys2Proof

/-- What the decoder answers for a word whose opcode has the class `c` (R66 to R72). -/
def decodeClass : OpClass → Word → Except Halt Instr
  | .rType, w => decodeRType w
  | .jump, w => .ok (.j (jsecField w))
  | .branchEqual, w => .ok (.beq (r1Field w) (r2Field w) (offsetField w))
  | .addImmediate, w => .ok (.addi (r1Field w) (r2Field w) (offsetField w))
  | .setLessThanImmediate, w => .ok (.slti (r1Field w) (r2Field w) (offsetField w))
  | .setLessThanImmediateUnsigned, w => .ok (.sltiu (r1Field w) (r2Field w) (offsetField w))
  | .loadUpperImmediate, w => .ok (.lui (r1Field w) (r2Field w) (offsetField w))
  | .loadWord, w => .ok (.lw (r1Field w) (r2Field w) (offsetField w))
  | .storeWord, w => .ok (.sw (r1Field w) (r2Field w) (offsetField w))

theorem decode_of_classify {m : OpcodeMap} {w : Word} {c : OpClass} (h : m.classify (opField w) = some c) :
    decode m w = decodeClass c w := by
  cases c <;> simp only [decode, h, decodeClass]

theorem decode_of_classify_none {m : OpcodeMap} {w : Word} (h : m.classify (opField w) = none) :
    decode m w = .error .unsupportedOpcode := by
  simp only [decode, h]

/-- Under a legal map the opcode of a class is decoded as that class. -/
theorem decode_of_opcode {m : OpcodeMap} {w : Word} (hm : m.Legal) (c : OpClass) (h : opField w = m.opcode c) :
    decode m w = decodeClass c w :=
  decode_of_classify (h ▸ m.classify_opcode hm c)

/-- A word that decodes has an opcode in the map. -/
theorem classify_of_decode_ok {m : OpcodeMap} {w : Word} {i : Instr} (h : decode m w = .ok i) :
    ∃ c, m.classify (opField w) = some c ∧ decodeClass c w = .ok i := by
  cases hc : m.classify (opField w) with
  | none =>
    rw [decode_of_classify_none hc] at h
    cases h
  | some c => exact ⟨c, rfl, decode_of_classify hc ▸ h⟩

/-! From the instruction to the word and back. -/

theorem classify_encode : ∀ i : Instr, Laws.ClassOfWord.Statement i
  | .add r1 r2 r3 g => Laws.ClassOfWord.add r1 r2 r3 g
  | .sub r1 r2 r3 g => Laws.ClassOfWord.sub r1 r2 r3 g
  | .and r1 r2 r3 g => Laws.ClassOfWord.and r1 r2 r3 g
  | .or r1 r2 r3 g => Laws.ClassOfWord.or r1 r2 r3 g
  | .slt r1 r2 r3 g => Laws.ClassOfWord.slt r1 r2 r3 g
  | .sltu r1 r2 r3 g => Laws.ClassOfWord.sltu r1 r2 r3 g
  | .j jsec => Laws.ClassOfWord.j jsec
  | .beq r1 r2 o => Laws.ClassOfWord.beq r1 r2 o
  | .addi r1 r2 o => Laws.ClassOfWord.addi r1 r2 o
  | .slti r1 r2 o => Laws.ClassOfWord.slti r1 r2 o
  | .sltiu r1 r2 o => Laws.ClassOfWord.sltiu r1 r2 o
  | .lui r1 r2 o => Laws.ClassOfWord.lui r1 r2 o
  | .lw r1 r2 o => Laws.ClassOfWord.lw r1 r2 o
  | .sw r1 r2 o => Laws.ClassOfWord.sw r1 r2 o

/-- The fields that the decoder reads from an instruction's word are the instruction's own. -/
theorem decodeClass_encode (m : OpcodeMap) (i : Instr) : decodeClass i.opClass (encode m i) = .ok i := by
  cases i <;> simp [Instr.opClass, decodeClass, decodeRType, encode]

/-- Settles O1: the word is classified as the instruction's class, and that class reads the instruction's fields. -/
theorem decodeOfEncode : Obligations.DecodeOfEncode := fun m hm i =>
  (decode_of_classify (classify_encode i m hm)).trans (decodeClass_encode m i)

/-! From the word to the instruction and back. -/

/-- An R-type word that decodes is the word of its instruction: each branch fixes the funct field. -/
theorem encode_of_decodeRType {m : OpcodeMap} {w : Word} {i : Instr} (h : decodeRType w = .ok i) :
    encode m i = encodeR m.rType (r1Field w) (r2Field w) (r3Field w) (ignoredField w) (functField w) := by
  unfold decodeRType at h
  split_ifs at h with hadd hsub hand hor hslt hsltu
  all_goals
    injection h with h
    subst h
    simp only [encode, *]

theorem encodeI_fields_of_op {op : BitVec 6} {w : Word} (h : op = opField w) :
    encodeI op (r1Field w) (r2Field w) (offsetField w) = w := by
  rw [h, encodeI_fields]

/-- A word is the word of the instruction its class reads, once the class has the word's opcode. -/
theorem encode_of_decodeClass {m : OpcodeMap} {w : Word} {c : OpClass} {i : Instr} (hop : m.opcode c = opField w)
    (h : decodeClass c w = .ok i) : encode m i = w := by
  cases c with
  | rType => rw [encode_of_decodeRType h, show m.rType = opField w from hop, encodeR_fields]
  | jump => cases h; rw [encode, show m.jump = opField w from hop, encodeJ_fields]
  | branchEqual => cases h; exact encodeI_fields_of_op hop
  | addImmediate => cases h; exact encodeI_fields_of_op hop
  | setLessThanImmediate => cases h; exact encodeI_fields_of_op hop
  | setLessThanImmediateUnsigned => cases h; exact encodeI_fields_of_op hop
  | loadUpperImmediate => cases h; exact encodeI_fields_of_op hop
  | loadWord => cases h; exact encodeI_fields_of_op hop
  | storeWord => cases h; exact encodeI_fields_of_op hop

/-- Settles O2: the class of a word that decodes has the word's opcode, and the fields put together give the word. -/
theorem encodeOfDecode : Obligations.EncodeOfDecode := by
  intro m w i h
  obtain ⟨c, hclass, hread⟩ := classify_of_decode_ok h
  exact encode_of_decodeClass (OpcodeMap.opcode_of_classify hclass) hread

/-- Settles O3, by evaluating the decoder on the nine words. -/
theorem sampleWordsDecode : Obligations.SampleWordsDecode := by
  unfold Obligations.SampleWordsDecode
  decide

end Sys2Proof
end

section
/-! The cycle of rule R131 as the units make it: each way `cycle` can go, what the units do for the control row of
each class, and the agreement with `step`. -/

namespace Sys2Proof.Machine.Datapath

/-! The ControlUnit and the resolver. -/

theorem controlUnit_of_classify {p : Params} {op : BitVec 6} {c : OpClass} (h : p.opcodeMap.classify op = some c) :
    controlUnit p op = .ok (controlRow p c) := by
  simp only [controlUnit, h]

theorem controlUnit_of_classify_none {p : Params} {op : BitVec 6} (h : p.opcodeMap.classify op = none) :
    controlUnit p op = .error .unsupportedOpcode := by
  simp only [controlUnit, h]

/-- The resolver reads the funct table of the decoder: the code it gives names the operation of the R-type
instruction. -/
theorem exec_of_decodeRType {w : Word} {i : Instr} (h : decodeRType w = .ok i) :
    ∃ code, aluControlResolver 7#3 (functField w) = .ok code ∧
      ∀ s, exec i s = aluToR3 (aluOpOfCode code) (r1Field w) (r2Field w) (r3Field w) s := by
  unfold decodeRType at h
  split_ifs at h with hadd hsub hand hor hslt hsltu
  all_goals
    injection h with h
    subst h
  · rw [hadd]; exact ⟨0#3, rfl, fun _ => rfl⟩
  · rw [hsub]; exact ⟨1#3, rfl, fun _ => rfl⟩
  · rw [hand]; exact ⟨4#3, rfl, fun _ => rfl⟩
  · rw [hor]; exact ⟨5#3, rfl, fun _ => rfl⟩
  · rw [hslt]; exact ⟨2#3, rfl, fun _ => rfl⟩
  · rw [hsltu]; exact ⟨3#3, rfl, fun _ => rfl⟩

/-- The decoder rejects a funct exactly where the resolver does. -/
theorem aluControlResolver_of_decodeRType_error {w : Word} {h : Halt} (e : decodeRType w = .error h) :
    aluControlResolver 7#3 (functField w) = .error h := by
  unfold decodeRType at e
  split_ifs at e with hadd hsub hand hor hslt hsltu
  injection e with e
  subst e
  exact aluControlResolver_of_not_mem (by simp [*])

/-! The ways of a cycle. -/

section
variable {s : State} {w : Word}

theorem cycle_of_halted (h : s.halt ≠ 0#3) : cycle s = .next s := by
  rw [cycle, if_pos h]

theorem cycle_of_fetch_error {e : Halt} (hrun : s.halt = 0#3) (hf : memFetch s s.pc = .error e) :
    cycle s = raiseHalt e s := by
  simp only [cycle, hrun, hf, ne_eq, not_true_eq_false, if_false]

theorem cycle_of_control_error {e : Halt} (hrun : s.halt = 0#3) (hf : memFetch s s.pc = .ok w)
    (hc : controlUnit s.params (opField w) = .error e) : cycle s = raiseHalt e s := by
  have hc' : controlUnit s.params (instructionDecoder w).op = .error e := hc
  simp only [cycle, hrun, hf, hc', ne_eq, not_true_eq_false, if_false]

theorem cycle_of_resolver_error {ctl : ControlSignals} {e : Halt} (hrun : s.halt = 0#3) (hf : memFetch s s.pc = .ok w)
    (hc : controlUnit s.params (opField w) = .ok ctl) (hr : aluControlResolver ctl.aluOp (functField w) = .error e) :
    cycle s = raiseHalt e s := by
  have hc' : controlUnit s.params (instructionDecoder w).op = .ok ctl := hc
  have hr' : aluControlResolver ctl.aluOp (instructionDecoder w).funct = .error e := hr
  simp only [cycle, hrun, hf, hc', hr', ne_eq, not_true_eq_false, if_false]

theorem cycle_of_resolved {ctl : ControlSignals} {code : BitVec 3} (hrun : s.halt = 0#3) (hf : memFetch s s.pc = .ok w)
    (hc : controlUnit s.params (opField w) = .ok ctl) (hr : aluControlResolver ctl.aluOp (functField w) = .ok code) :
    cycle s = completeCycle s (instructionDecoder w) ctl code := by
  have hc' : controlUnit s.params (instructionDecoder w).op = .ok ctl := hc
  have hr' : aluControlResolver ctl.aluOp (instructionDecoder w).funct = .ok code := hr
  simp only [cycle, hrun, hf, hc', hr', ne_eq, not_true_eq_false, if_false]

end

/-! The units after the resolver, under the control row of each class. -/

section
variable (s : State) (f : Fields)

theorem completeCycle_rType (code : BitVec 3) :
    completeCycle s f (controlRow s.params .rType) code = aluToR3 (aluOpOfCode code) f.r1 f.r2 f.r3 s := rfl

theorem completeCycle_jump : completeCycle s f (controlRow s.params .jump) 0#3 = execJ f.jsec s := rfl

theorem completeCycle_branchEqual :
    completeCycle s f (controlRow s.params .branchEqual) 1#3 = execBeq f.r1 f.r2 f.offset s := by
  have hunits : completeCycle s f (controlRow s.params .branchEqual) 1#3 =
      .next (setPc (if 1#1 = 1#1 ∧ zeroFlag (aluResult .subtract (readReg s f.r1) (readReg s f.r2)) = true
        then s.pc + 4#32 + branchDisplacement f.offset else s.pc + 4#32) s) := rfl
  rw [hunits, execBeq]
  by_cases hz : zeroFlag (aluResult .subtract (readReg s f.r1) (readReg s f.r2)) = true
  · rw [if_pos ⟨rfl, hz⟩, if_pos hz]
  · rw [if_neg (fun h => hz h.2), if_neg hz]

/-- The row the four ALU-immediate classes share, but for ALUOp. -/
def immRow (p : Params) (code : BitVec 3) : ControlSignals :=
  { controlRow p .addImmediate with aluOp := code }

/-- RegDst is IMM_REGDST in these rows: under 0 MemtoReg and RegDst name no write (R128, conflict C3). -/
theorem writeBack_immRow (code : BitVec 3) (hr3 : f.r3 = offsetR3 f.offset) (memdata result : Word) :
    writeBack (immRow s.params code) f memdata result s = immWriteBack f.offset result s := by
  unfold immWriteBack
  cases hp : s.params.immRegDst with
  | false =>
    have hdst : (immRow s.params code).regDst = 0#2 := by simp [immRow, controlRow, immRegDstCell, hp]
    exact writeBack_eq_self f memdata result s (by simp [immRow, controlRow]) (by simp [hdst])
  | true =>
    have hdst : (immRow s.params code).regDst = 1#2 := by simp [immRow, controlRow, immRegDstCell, hp]
    rw [writeBack_result f memdata result s rfl rfl hdst, hr3, if_pos rfl]

@[simp] theorem immWriteBack_pc (offset : BitVec 16) (result : Word) : (immWriteBack offset result s).pc = s.pc := by
  unfold immWriteBack
  split <;> rfl

theorem completeCycle_immRow (code : BitVec 3) (hr3 : f.r3 = offsetR3 f.offset) :
    completeCycle s f (immRow s.params code) code = aluImmediate (aluOpOfCode code) f.r1 f.offset s := by
  have hunits : completeCycle s f (immRow s.params code) code = .next (setPc (s.pc + 4#32) (writeBack
      (immRow s.params code) f 0#32 (aluResult (aluOpOfCode code) (readReg s f.r1) (sext32 f.offset)) s)) := rfl
  rw [hunits, writeBack_immRow s f code hr3, aluImmediate, advancePc, immWriteBack_pc]

theorem completeCycle_loadWord :
    completeCycle s f (controlRow s.params .loadWord) 0#3 = execLw f.r1 f.r2 f.offset s := rfl

/-- The store leaves the PC, so that advancing it afterwards is the PCUpdateUnit's increment. -/
theorem completeCycle_storeWord :
    completeCycle s f (controlRow s.params .storeWord) 0#3 = execSw f.r1 f.r2 f.offset s := by
  change (match memWrite s (effectiveAddress s f.r1 f.offset) (readReg s f.r2) with
    | .error h => raiseHalt h s
    | .ok stored => .next (setPc (s.pc + 4#32) stored)) = _
  unfold execSw
  cases hw : memWrite s (effectiveAddress s f.r1 f.offset) (readReg s f.r2) with
  | error h => rfl
  | ok stored =>
    obtain ⟨-, -, rfl⟩ := memWrite_ok_iff.1 hw
    rfl

end

/-- The units do what the decoded instruction means. -/
theorem completeCycle_of_decodeClass {s : State} {w : Word} {c : OpClass} {i : Instr} (h : decodeClass c w = .ok i) :
    ∃ code, aluControlResolver (controlRow s.params c).aluOp (functField w) = .ok code ∧
      completeCycle s (instructionDecoder w) (controlRow s.params c) code = exec i s := by
  have hr3 : (instructionDecoder w).r3 = offsetR3 (instructionDecoder w).offset := (offsetR3_offsetField w).symm
  cases c with
  | rType =>
    obtain ⟨code, hcode, hexec⟩ := exec_of_decodeRType h
    exact ⟨code, hcode, (completeCycle_rType s _ code).trans (hexec s).symm⟩
  | jump => cases h; exact ⟨0#3, rfl, completeCycle_jump s _⟩
  | branchEqual => cases h; exact ⟨1#3, rfl, completeCycle_branchEqual s _⟩
  | addImmediate => cases h; exact ⟨0#3, rfl, completeCycle_immRow s _ 0#3 hr3⟩
  | setLessThanImmediate => cases h; exact ⟨2#3, rfl, completeCycle_immRow s _ 2#3 hr3⟩
  | setLessThanImmediateUnsigned => cases h; exact ⟨3#3, rfl, completeCycle_immRow s _ 3#3 hr3⟩
  | loadUpperImmediate => cases h; exact ⟨6#3, rfl, completeCycle_immRow s _ 6#3 hr3⟩
  | loadWord => cases h; exact ⟨0#3, rfl, completeCycle_loadWord s _⟩
  | storeWord => cases h; exact ⟨0#3, rfl, completeCycle_storeWord s _⟩

/-- A word that the decoder rejects is rejected by the ControlUnit or by the resolver, with the same halt. -/
theorem cycle_of_decode_error {s : State} {w : Word} {e : Halt} (hrun : s.halt = 0#3) (hf : memFetch s s.pc = .ok w)
    (hd : decode s.params.opcodeMap w = .error e) : cycle s = raiseHalt e s := by
  cases hc : s.params.opcodeMap.classify (opField w) with
  | none =>
    rw [decode_of_classify_none hc] at hd
    injection hd with hd
    exact cycle_of_control_error hrun hf (hd ▸ controlUnit_of_classify_none hc)
  | some c =>
    rw [decode_of_classify hc] at hd
    cases c with
    | rType =>
      exact cycle_of_resolver_error hrun hf (controlUnit_of_classify hc) (aluControlResolver_of_decodeRType_error hd)
    | _ => cases hd

theorem cycle_of_decode_ok {s : State} {w : Word} {i : Instr} (hrun : s.halt = 0#3) (hf : memFetch s s.pc = .ok w)
    (hd : decode s.params.opcodeMap w = .ok i) : cycle s = exec i s := by
  obtain ⟨c, hclass, hread⟩ := classify_of_decode_ok hd
  obtain ⟨code, hcode, hcycle⟩ := completeCycle_of_decodeClass (s := s) hread
  exact (cycle_of_resolved hrun hf (controlUnit_of_classify hclass) hcode).trans hcycle

/-- Settles O10: the four ways of a step, each the same way of the cycle. -/
theorem stepIsDatapathCycle : Obligations.StepIsDatapathCycle := by
  intro s
  rcases step_cases s with ⟨hhalt, hstep⟩ | ⟨hrun, h, hf, hstep⟩ | ⟨hrun, w, h, hf, hd, hstep⟩ |
    ⟨hrun, w, i, hf, hd, hstep⟩
  · rw [hstep, cycle_of_halted hhalt]
  · rw [hstep, cycle_of_fetch_error hrun hf]
  · rw [hstep, cycle_of_decode_error hrun hf hd]
  · rw [hstep, cycle_of_decode_ok hrun hf hd]

end Sys2Proof.Machine.Datapath
end

section
/-! Rule R70: what an instruction does with the fields it does not use. -/

namespace Sys2Proof.Machine

open Datapath

/-- Under IMM_REGDST = 0 an ALU-immediate instruction moves the PC on and does nothing else, whatever its fields. -/
theorem aluImmediate_of_not_immRegDst {s : State} (h : s.params.immRegDst = false) (op : AluOp) (r1 : RegIdx)
    (offset : BitVec 16) : aluImmediate op r1 offset s = .next (advancePc s) :=
  aluImmediate_next.2 (.inl ⟨h, rfl⟩)

theorem aluImmediate_of_immRegDst {s : State} (h : s.params.immRegDst = true) (op : AluOp) (r1 : RegIdx)
    (offset : BitVec 16) : aluImmediate op r1 offset s =
      .next (advancePc (writeReg (offsetR3 offset) (aluResult op (readReg s r1) (sext32 offset)) s)) :=
  aluImmediate_next.2 (.inr ⟨h, rfl⟩)

/-- A field inside a range of bits, read from the range. -/
theorem extractLsb'_add_eq (w : Word) {start n len range : Nat} (h : n + len ≤ range) :
    w.extractLsb' (start + n) len = (w.extractLsb' start range).extractLsb' n len := by
  ext k hk
  simp [Nat.add_assoc]
  omega

/-- Bits 25:11 of a word are its three register fields. -/
theorem registerFields_congr {w w' : Word} (h : w.extractLsb' 11 15 = w'.extractLsb' 11 15) :
    r1Field w = r1Field w' ∧ r2Field w = r2Field w' ∧ r3Field w = r3Field w' := by
  have field : ∀ n, n + 5 ≤ 15 → w.extractLsb' (11 + n) 5 = w'.extractLsb' (11 + n) 5 := fun n hn => by
    rw [extractLsb'_add_eq w hn, h, ← extractLsb'_add_eq w' hn]
  exact ⟨field 10 (by decide), field 5 (by decide), field 0 (by decide)⟩

/-- Bits 15:0 of a word are its offset. -/
theorem offsetField_congr {w w' : Word} (h : w.extractLsb' 0 21 = w'.extractLsb' 0 21) :
    offsetField w = offsetField w' := by
  have field (v : Word) : offsetField v = (v.extractLsb' 0 21).extractLsb' 0 16 :=
    (BitVec.extractLsb'_extractLsb'_of_le (by decide)).symm
  rw [field w, h, ← field w']

/-- Bits 10:6 of an R-type word have no effect: the funct field fixes the operation, the three registers its operands.
-/
theorem exec_rType_congr {m : OpcodeMap} {w w' : Word} {i i' : Instr} (s : State) (hop : opField w = m.rType)
    (hop' : opField w' = m.rType) (hregs : w.extractLsb' 11 15 = w'.extractLsb' 11 15)
    (hfunct : functField w = functField w') (hd : decode m w = .ok i) (hd' : decode m w' = .ok i') :
    exec i s = exec i' s := by
  rw [decode_of_rType hop] at hd
  rw [decode_of_rType hop'] at hd'
  obtain ⟨code, hcode, hexec⟩ := exec_of_decodeRType hd
  obtain ⟨code', hcode', hexec'⟩ := exec_of_decodeRType hd'
  obtain ⟨h1, h2, h3⟩ := registerFields_congr hregs
  have hsame : code = code' := by
    rw [hfunct, hcode'] at hcode
    injection hcode with hcode
    exact hcode.symm
  rw [hexec, hexec', hsame, h1, h2, h3]

/-- The base register and r2 of lui have no effect: its ALU operation ignores the first operand. -/
theorem exec_lui_registers (r1 r1' r2 r2' : RegIdx) (offset : BitVec 16) (s : State) :
    exec (.lui r1 r2 offset) s = exec (.lui r1' r2' offset) s := rfl

theorem exec_lui_congr {m : OpcodeMap} {w w' : Word} {i i' : Instr} (s : State) (hm : m.Legal)
    (hop : opField w = m.loadUpperImmediate) (hop' : opField w' = m.loadUpperImmediate)
    (hlow : w.extractLsb' 0 21 = w'.extractLsb' 0 21) (hd : decode m w = .ok i) (hd' : decode m w' = .ok i') :
    exec i s = exec i' s := by
  rw [decode_of_opcode hm .loadUpperImmediate hop] at hd
  rw [decode_of_opcode hm .loadUpperImmediate hop', decodeClass, ← offsetField_congr hlow] at hd'
  cases hd
  cases hd'
  exact exec_lui_registers _ _ _ _ _ s

/-- A word of the four ALU-immediate classes under IMM_REGDST = 0. -/
theorem exec_immediate_of_not_immRegDst {m : OpcodeMap} {w : Word} {i : Instr} {s : State} (hm : m.Legal)
    (hp : s.params.immRegDst = false) (hop : opField w ∈ [m.addImmediate, m.setLessThanImmediate,
      m.setLessThanImmediateUnsigned, m.loadUpperImmediate]) (hd : decode m w = .ok i) :
    exec i s = .next (advancePc s) := by
  simp only [List.mem_cons, List.not_mem_nil, or_false] at hop
  rcases hop with hop | hop | hop | hop
  · cases (decode_of_opcode hm .addImmediate hop).symm.trans hd
    exact aluImmediate_of_not_immRegDst hp _ _ _
  · cases (decode_of_opcode hm .setLessThanImmediate hop).symm.trans hd
    exact aluImmediate_of_not_immRegDst hp _ _ _
  · cases (decode_of_opcode hm .setLessThanImmediateUnsigned hop).symm.trans hd
    exact aluImmediate_of_not_immRegDst hp _ _ _
  · cases (decode_of_opcode hm .loadUpperImmediate hop).symm.trans hd
    exact aluImmediate_of_not_immRegDst hp _ _ _

/-- Settles O6, one lemma for each of the three kinds of unused fields. -/
theorem unusedFieldsHaveNoEffect : Obligations.UnusedFieldsHaveNoEffect := by
  intro m w w' s hm hop
  change opField w = opField w' at hop
  refine ⟨fun hr hregs hfunct i i' hd hd' => ?_, fun hl hlow i i' hd hd' => ?_, fun hp himm i i' hd hd' => ?_⟩
  · exact exec_rType_congr s hr (hop.symm.trans hr) hregs hfunct hd hd'
  · exact exec_lui_congr s hm hl (hop.symm.trans hl) hlow hd hd'
  · change opField w ∈ _ at himm
    have himm' := himm
    rw [hop] at himm'
    rw [exec_immediate_of_not_immRegDst hm hp himm hd, exec_immediate_of_not_immRegDst hm hp himm' hd']

end Sys2Proof.Machine
end

section
/-! The fetch by the number of its address (20_memory.md rule R43), and what a cycle does with its word: rules R131 to
R134 and the causes of the halts (60_exceptions.md rules R300 to R303). -/

namespace Sys2Proof.Machine

open Datapath

/-! The fetch. -/

/-- Memory is the addresses below 65536. -/
theorem idx_lt_memoryWords_iff {a : Word} : idx a < memoryWords ↔ a.toNat < 65536 := by
  rw [idx_eq_div, memoryWords]
  omega

theorem memoryWords_le_idx_iff {a : Word} : memoryWords ≤ idx a ↔ 65536 ≤ a.toNat := by
  rw [idx_eq_div, memoryWords]
  omega

section
variable {s : State} {a : Word}

theorem memFetch_misaligned (h : a.toNat % 4 ≠ 0) : memFetch s a = .error .misalignedFetch :=
  memFetch_error_iff.2 (.inl ⟨fun hl => h (lowBits_eq_zero_iff.1 hl), rfl⟩)

theorem memFetch_outOfRange (hal : a.toNat % 4 = 0) (h : 65536 ≤ a.toNat) : memFetch s a = .error .outOfRange :=
  memFetch_error_iff.2 (.inr ⟨lowBits_eq_zero_iff.2 hal, memoryWords_le_idx_iff.2 h, rfl⟩)

theorem memFetch_backed (hal : a.toNat % 4 = 0) (h : a.toNat < 65536) :
    memFetch s a = .ok (Memory.readWord s.mem (idx a)) :=
  memFetch_ok_iff.2 ⟨lowBits_eq_zero_iff.2 hal, idx_lt_memoryWords_iff.2 h, rfl⟩

end

/-! The ways of a step. -/

section
variable {s : State}

theorem step_of_halted (h : s.halt ≠ 0#3) : step s = .next s := by
  rw [step, if_pos h]

theorem step_of_fetch_error {h : Halt} (hrun : s.halt = 0#3) (hfetch : memFetch s s.pc = .error h) :
    step s = raiseHalt h s := by
  simp [step, hrun, hfetch]

theorem step_of_decode_ok {w : Word} {i : Instr} (hrun : s.halt = 0#3) (hfetch : memFetch s s.pc = .ok w)
    (hdecode : decode s.params.opcodeMap w = .ok i) : step s = exec i s := by
  simp [step, hrun, hfetch, hdecode]

end

/-- Settles O7: an aligned and backed PC fetches the word there. -/
theorem stepRunsDecodedInstruction : Obligations.StepRunsDecodedInstruction := by
  intro s i hrun hal hback hdecode
  rw [← idx_eq_div] at hdecode
  exact step_of_decode_ok hrun (memFetch_backed hal hback) hdecode

/-- Settles O8: the three answers of the fetch, and the halts that the two failing ones raise. -/
theorem fetchChecks : Obligations.FetchChecks := by
  refine ⟨fun s a => ⟨memFetch_misaligned, fun hal h => memFetch_outOfRange hal (by omega), fun hal h => ?_⟩,
    fun s hrun => ⟨fun h => ?_, fun hal h => ?_⟩⟩
  · rw [← idx_eq_div]
    exact memFetch_backed hal (by omega)
  · exact step_of_fetch_error hrun (memFetch_misaligned h)
  · exact step_of_fetch_error hrun (memFetch_outOfRange hal (by omega))

/-- Settles O4: such an opcode has no class, so neither the ControlUnit nor the decoder knows it. -/
theorem unsupportedOpcodeHalts : Obligations.UnsupportedOpcodeHalts := by
  intro s w hrun hfetch houtside
  have hclass : s.params.opcodeMap.classify (opField w) = none := by
    cases hc : s.params.opcodeMap.classify (opField w) with
    | none => rfl
    | some c => exact absurd (OpcodeMap.opcode_of_classify hc) (houtside c)
  exact ⟨controlUnit_of_classify_none hclass, step_of_decode_error hrun hfetch (decode_of_classify_none hclass)⟩

/-! The placed word (log 7). -/

theorem placeNextWord_pc (s : State) (w : Word) :
    (placeNextWord s w).pc = if fetchable s.pc then s.pc else 0#32 := rfl

/-- The PC of the state made ready is one that a fetch succeeds from. -/
theorem fetchable_placeNextWord (s : State) (w : Word) :
    lowBits (placeNextWord s w).pc = 0#2 ∧ idx (placeNextWord s w).pc < memoryWords := by
  rw [placeNextWord_pc]
  by_cases h : fetchable s.pc = true
  · rw [if_pos h]
    simpa [fetchable] using h
  · rw [if_neg h]
    decide

theorem memFetch_placeNextWord {s : State} (w : Word) (hm : Memory.wf s.mem = true) :
    memFetch (placeNextWord s w) (placeNextWord s w).pc = .ok w := by
  obtain ⟨hal, hidx⟩ := fetchable_placeNextWord s w
  exact memFetch_ok_iff.2 ⟨hal, hidx, (Memory.readWord_writeWord_same w hidx hm).symm⟩

/-- Settles O9: the fetch reads the placed word, whose 32 bits are all kept. -/
theorem placedWordRunsNext : Obligations.PlacedWordRunsNext := by
  intro s w i hm hdecode
  have hplace : s.withFetchWord 32 w.toNat = placeNextWord s w := by
    rw [State.withFetchWord, Nat.mod_eq_of_lt w.isLt, BitVec.ofNat_toNat, BitVec.setWidth_eq]
  rw [hplace]
  exact step_of_decode_ok (placeNextWord_halt s w) (memFetch_placeNextWord w hm) hdecode

/-! A halted core. -/

theorem runsTo_of_halted {s : State} (h : s.halt ≠ 0#3) : ∀ k, RunsTo k s s
  | 0 => rfl
  | k + 1 => (runsTo_succ (step_of_halted h)).2 (runsTo_of_halted h k)

/-- Settles O11, by induction on the number of cycles. -/
theorem haltedCoreIsFrozen : Obligations.HaltedCoreIsFrozen := fun _ k h =>
  ⟨step_of_halted h, runsTo_of_halted h k⟩

/-! What a cycle answers, all kinds of halts together. -/

/-- A cycle that answers a next state left a halted core alone, raised one of the source's four halts, or ran an
instruction to its end. -/
theorem step_next_cases {s t : State} (h : step s = .next t) :
    (s.halt ≠ 0#3 ∧ t = s) ∨
    (s.halt = 0#3 ∧ ∃ e, e ≠ .outOfRange ∧ t = setHalt (haltCode e) s) ∨
    (s.halt = 0#3 ∧ t.halt = 0#3 ∧ ∃ i, memFetch s s.pc = .ok (Memory.readWord s.mem (idx s.pc)) ∧
      decode s.params.opcodeMap (Memory.readWord s.mem (idx s.pc)) = .ok i ∧ exec i s = .next t) := by
  rcases step_cases s with ⟨hhalt, hstep⟩ | ⟨hrun, e, -, hstep⟩ | ⟨hrun, w, e, -, -, hstep⟩ |
    ⟨hrun, w, i, hf, hd, hstep⟩
  · rw [hstep] at h
    injection h with h
    exact .inl ⟨hhalt, h.symm⟩
  · exact .inr (.inl ⟨hrun, e, raiseHalt_next (hstep ▸ h)⟩)
  · exact .inr (.inl ⟨hrun, e, raiseHalt_next (hstep ▸ h)⟩)
  · have hexec : exec i s = .next t := hstep ▸ h
    obtain ⟨-, -, rfl⟩ := memFetch_ok_iff.1 hf
    rcases exec_next_access hexec with ⟨hhalt, -⟩ | ⟨-, -, -, rfl⟩
    · exact .inr (.inr ⟨hrun, hhalt.trans hrun, i, hf, hd, hexec⟩)
    · exact .inr (.inl ⟨hrun, .memoryAlignmentFault, by decide, rfl⟩)

/-- A cycle is never refused, and the state that the model fault leaves is the state before with HALT = 5. -/
theorem step_next_or_fault (s : State) :
    (∃ t, step s = .next t) ∨ (s.halt = 0#3 ∧ step s = .fault (.outOfRange (setHalt 5#3 s))) := by
  have raised (e : Halt) (hrun : s.halt = 0#3) (hstep : step s = raiseHalt e s) :
      (∃ t, step s = .next t) ∨ (s.halt = 0#3 ∧ step s = .fault (.outOfRange (setHalt 5#3 s))) :=
    (raiseHalt_cases e s).elim (fun hr => .inl ⟨_, hstep.trans hr.2⟩) (fun hr => .inr ⟨hrun, hstep.trans hr.2⟩)
  rcases step_cases s with ⟨-, hstep⟩ | ⟨hrun, e, -, hstep⟩ | ⟨hrun, w, e, -, -, hstep⟩ | ⟨hrun, w, i, -, -, hstep⟩
  · exact .inl ⟨s, hstep⟩
  · exact raised e hrun hstep
  · exact raised e hrun hstep
  · rcases exec_not_next (i := i) (s := s) with ⟨t, ht⟩ | ⟨hfault, -⟩
    · exact .inl ⟨t, hstep.trans ht⟩
    · exact .inr ⟨hrun, hstep.trans hfault⟩

theorem step_fault {s : State} {f : Fault} (h : step s = .fault f) :
    s.halt = 0#3 ∧ f = .outOfRange (setHalt 5#3 s) := by
  rcases step_next_or_fault s with ⟨t, ht⟩ | ⟨hrun, hfault⟩
  · cases ht.symm.trans h
  · cases hfault.symm.trans h
    exact ⟨hrun, rfl⟩

theorem haltCode_mem {e : Halt} (h : e ≠ .outOfRange) : haltCode e ∈ [1#3, 2#3, 3#3, 4#3] := by
  cases e with
  | outOfRange => exact absurd rfl h
  | _ => decide

/-- Settles O12: of the ways to a next state only a raised halt sets HALT; the fault is `step_fault`. -/
theorem haltingCycleChangesOnlyHalt : Obligations.HaltingCycleChangesOnlyHalt := by
  refine ⟨fun s t hrun hstep hhalt => ?_, fun s f hstep => step_fault hstep⟩
  rcases step_next_cases hstep with ⟨hne, -⟩ | ⟨-, e, he, rfl⟩ | ⟨-, hzero, -⟩
  · exact absurd hrun hne
  · exact ⟨rfl, haltCode_mem he⟩
  · exact absurd hzero hhalt

/-- A running cycle with an aligned PC that answers a next state has fetched the word there. -/
theorem memFetch_of_step_next {s t : State} (hrun : s.halt = 0#3) (hstep : step s = .next t)
    (hal : s.pc.toNat % 4 = 0) : memFetch s s.pc = .ok (Memory.readWord s.mem (idx s.pc)) := by
  by_cases hback : s.pc.toNat < 65536
  · exact memFetch_backed hal hback
  · rw [step_of_fetch_error hrun (memFetch_outOfRange hal (Nat.le_of_not_lt hback))] at hstep
    cases hstep

/-- Settles O13. The order of the checks is the case split: the PC, then the word, then the data access; in each case
HALT has one value and all other causes are excluded. -/
theorem haltCodesHaveTheirCauses : Obligations.HaltCodesHaveTheirCauses := by
  intro s t hrun hstep
  by_cases hal : s.pc.toNat % 4 = 0
  · have hfetch := memFetch_of_step_next hrun hstep hal
    cases hd : decode s.params.opcodeMap (Memory.readWord s.mem (idx s.pc)) with
    | error e =>
      obtain ⟨-, rfl⟩ := raiseHalt_next ((step_of_decode_error hrun hfetch hd).symm.trans hstep)
      rcases decode_error hd with rfl | rfl <;> simp [hal, haltCode]
    | ok i =>
      rcases exec_next_access ((step_of_decode_ok hrun hfetch hd).symm.trans hstep) with
        ⟨hhalt, hpermitted⟩ | ⟨a, ha, hdenied, rfl⟩
      · simpa [hal, hhalt, hrun] using fun a ha => (hpermitted a ha).1
      · simp [hal, ha, hdenied]
  · obtain ⟨-, rfl⟩ := raiseHalt_next ((step_of_fetch_error hrun (memFetch_misaligned hal)).symm.trans hstep)
    simp [hal, haltCode]

/-- An instruction whose permitted access is outside memory faults. -/
theorem exec_fault_of_outOfRange {i : Instr} {s : State} {a : Word} (ha : dataAddress s i = some a)
    (hok : dataOk s.params.memAlignPolarity a = true) (hout : memoryWords ≤ idx a) :
    exec i s = .fault (.outOfRange (setHalt 5#3 s)) := by
  rcases exec_not_next (i := i) (s := s) with ⟨t, ht⟩ | ⟨hfault, -⟩
  · rcases exec_next_access ht with ⟨-, hpermitted⟩ | ⟨a', ha', hdenied, -⟩
    · exact absurd (hpermitted a ha).2 (Nat.not_lt.2 hout)
    · obtain rfl : a = a' := Option.some.inj (ha.symm.trans ha')
      exact absurd hok (Bool.eq_false_iff.1 hdenied)
  · exact hfault

/-- What a running core did that ended a cycle in the model fault. -/
theorem cause_of_step_fault {s : State} {f : Fault} (hrun : s.halt = 0#3) (hstep : step s = .fault f) :
    s.pc.toNat % 4 = 0 ∧ (65536 ≤ s.pc.toNat ∨ (s.pc.toNat < 65536 ∧
      ∃ i a, decode s.params.opcodeMap (Memory.readWord s.mem (idx s.pc)) = .ok i ∧ dataAddress s i = some a ∧
        dataOk s.params.memAlignPolarity a = true ∧ 65536 ≤ a.toNat)) := by
  by_cases hal : s.pc.toNat % 4 = 0
  · refine ⟨hal, ?_⟩
    by_cases hback : s.pc.toNat < 65536
    · have hfetch := memFetch_backed (s := s) hal hback
      cases hd : decode s.params.opcodeMap (Memory.readWord s.mem (idx s.pc)) with
      | error e =>
        obtain ⟨rfl, -⟩ := raiseHalt_fault ((step_of_decode_error hrun hfetch hd).symm.trans hstep)
        rcases decode_error hd with h | h <;> cases h
      | ok i =>
        rcases exec_not_next (i := i) (s := s) with ⟨t, ht⟩ | ⟨-, a, ha, hok, hout⟩
        · cases hstep.symm.trans ((step_of_decode_ok hrun hfetch hd).trans ht)
        · exact .inr ⟨hback, i, a, rfl, ha, hok, memoryWords_le_idx_iff.1 hout⟩
    · exact .inl (Nat.le_of_not_lt hback)
  · cases hstep.symm.trans (step_of_fetch_error hrun (memFetch_misaligned hal))

/-- Settles O14: the fault has its causes by `cause_of_step_fault`, and each of the two causes raises it. -/
theorem stepFaultsOnlyOutOfRange : Obligations.StepFaultsOnlyOutOfRange := by
  intro s
  refine ⟨(step_next_or_fault s).imp_right And.right, fun hstep => ?_, fun ⟨hrun, hal, hcause⟩ => ?_⟩
  · obtain ⟨hrun, -⟩ := step_fault hstep
    exact ⟨hrun, cause_of_step_fault hrun hstep⟩
  · rcases hcause with hout | ⟨hback, i, a, hd, ha, hok, hout⟩
    · exact step_of_fetch_error hrun (memFetch_outOfRange hal hout)
    · exact (step_of_decode_ok hrun (memFetch_backed hal hback) hd).trans
        (exec_fault_of_outOfRange ha hok (memoryWords_le_idx_iff.2 hout))

end Sys2Proof.Machine
end

section
/-! What every cycle keeps (10_state.md rules R26 and R33), and runs of cycles from a legal state. -/

namespace Sys2Proof.Machine

/-! The PC. -/

/-- The PC after an instruction: kept by a halt, moved on, or one of the two targets. -/
theorem exec_next_pc {i : Instr} {s t : State} (h : exec i s = .next t) :
    t.pc = s.pc ∨ t.pc = s.pc + 4#32 ∨ (∃ jsec, t.pc = jumpTarget (s.pc + 4#32) jsec) ∨
      ∃ offset, t.pc = s.pc + 4#32 + branchDisplacement offset := by
  rcases exec_next_cases h with ⟨r, v, -, rfl⟩ | ⟨hdest, haddr, -⟩ | ⟨r1, r2, o, -, -, -, rfl⟩ | ⟨a, -, -, rfl⟩
  · exact .inr (.inl rfl)
  · have imm {op r1 o} (h : aluImmediate op r1 o s = .next t) : t.pc = s.pc + 4#32 := by
      rcases aluImmediate_next.1 h with ⟨-, rfl⟩ | ⟨-, rfl⟩ <;> rfl
    cases i with
    | j jsec => cases h; exact .inr (.inr (.inl ⟨jsec, rfl⟩))
    | beq r1 r2 o =>
      cases (execBeq_eq r1 r2 o s).symm.trans h
      rw [setPc_pc, beqTarget]
      split
      · exact .inr (.inr (.inr ⟨o, rfl⟩))
      · exact .inr (.inl rfl)
    | addi r1 r2 o => exact .inr (.inl (imm h))
    | slti r1 r2 o => exact .inr (.inl (imm h))
    | sltiu r1 r2 o => exact .inr (.inl (imm h))
    | lui r1 r2 o => exact .inr (.inl (imm h))
    | sw r1 r2 o => cases haddr
    | _ => cases hdest
  · exact .inr (.inl rfl)
  · exact .inl rfl

theorem lowBits_add_four {a : Word} (h : lowBits a = 0#2) : lowBits (a + 4#32) = 0#2 :=
  lowBits_add h rfl

/-- No instruction makes an aligned PC misaligned (R26). -/
theorem exec_keeps_alignment {i : Instr} {s t : State} (h : exec i s = .next t) (hal : lowBits s.pc = 0#2) :
    lowBits t.pc = 0#2 := by
  rcases exec_next_pc h with hpc | hpc | ⟨jsec, hpc⟩ | ⟨o, hpc⟩ <;> rw [hpc]
  · exact hal
  · exact lowBits_add_four hal
  · exact lowBits_jumpTarget _ jsec
  · exact lowBits_add (lowBits_add_four hal) (lowBits_branchDisplacement o)

theorem step_keeps_alignment {s t : State} (h : step s = .next t) (hal : lowBits s.pc = 0#2) : lowBits t.pc = 0#2 := by
  rcases step_next_cases h with ⟨-, rfl⟩ | ⟨-, e, -, rfl⟩ | ⟨-, -, i, -, -, hexec⟩
  · exact hal
  · exact hal
  · exact exec_keeps_alignment hexec hal

/-! Memory and the parameters. -/

theorem exec_keeps_wf {i : Instr} {s t : State} (h : exec i s = .next t) (hm : Memory.wf s.mem = true) :
    Memory.wf t.mem = true := by
  rcases exec_next_cases h with ⟨r, v, -, rfl⟩ | ⟨-, -, pc, rfl⟩ | ⟨r1, r2, o, -, -, hidx, rfl⟩ | ⟨a, -, -, rfl⟩
  · exact hm
  · exact hm
  · exact Memory.wf_writeWord _ hidx hm
  · exact hm

theorem step_keeps_wf {s t : State} (h : step s = .next t) (hm : Memory.wf s.mem = true) : Memory.wf t.mem = true := by
  rcases step_next_cases h with ⟨-, rfl⟩ | ⟨-, e, -, rfl⟩ | ⟨-, -, i, -, -, hexec⟩
  · exact hm
  · exact hm
  · exact exec_keeps_wf hexec hm

theorem exec_keeps_params {i : Instr} {s t : State} (h : exec i s = .next t) : t.params = s.params := by
  rcases exec_next_cases h with ⟨r, v, -, rfl⟩ | ⟨-, -, pc, rfl⟩ | ⟨r1, r2, o, -, -, -, rfl⟩ | ⟨a, -, -, rfl⟩ <;> rfl

theorem step_keeps_params {s t : State} (h : step s = .next t) : t.params = s.params := by
  rcases step_next_cases h with ⟨-, rfl⟩ | ⟨-, e, -, rfl⟩ | ⟨-, -, i, -, -, hexec⟩
  · rfl
  · rfl
  · exact exec_keeps_params hexec

/-! HALT. -/

/-- A cycle that answers a next state sets HALT to no code above 4. -/
theorem step_keeps_halt_le {s t : State} {n : Nat} (hn : 4 ≤ n) (h : step s = .next t) (hs : s.halt.toNat ≤ n) :
    t.halt.toNat ≤ n := by
  rcases step_next_cases h with ⟨-, rfl⟩ | ⟨-, e, he, rfl⟩ | ⟨-, hzero, -⟩
  · exact hs
  · have hcode : (haltCode e).toNat ≤ 4 := by
      cases e with
      | outOfRange => exact absurd rfl he
      | _ => decide
    exact hcode.trans hn
  · rw [hzero]
    exact Nat.zero_le n

/-! Legal states. -/

theorem step_keeps_legal {s t : State} (hs : s.Legal) (h : step s = .next t) : t.Legal where
  memory := step_keeps_wf h hs.memory
  pcAligned := step_keeps_alignment h hs.pcAligned
  haltCode := step_keeps_halt_le (by decide) h hs.haltCode
  opcodeMap := step_keeps_params h ▸ hs.opcodeMap

/-- Settles O15, field by field of `State.Legal`. -/
theorem stepKeepsLegality : Obligations.StepKeepsLegality := fun _ _ hs h =>
  ⟨step_keeps_legal hs h, step_keeps_params h⟩

/-- Settles O16, by evaluation of the reset state. -/
theorem resetIsLegal : Obligations.ResetIsLegal where
  memory := rfl
  pcAligned := rfl
  haltCode := by decide
  opcodeMap := by decide

/-! The image in memory. -/

/-- The words of an image that fits stand in memory from `start` on. -/
theorem Memory.readWord_ofImage : ∀ {start : Nat} {image : List Word} {k : Nat} (hk : k < image.length),
    start + image.length ≤ memoryWords → Memory.readWord (Memory.ofImage start image) (start + k) = image[k]
  | start, w :: image, 0, _, hfit => by
    have hstart : start < memoryWords := by rw [List.length_cons] at hfit; omega
    rw [Memory.ofImage, if_pos hstart]
    exact Memory.readWord_writeWord_same w hstart (Memory.wf_ofImage (start + 1) image)
  | start, w :: image, k + 1, hk, hfit => by
    rw [List.length_cons] at hk hfit
    have hstart : start < memoryWords := by omega
    rw [Memory.ofImage, if_pos hstart, Memory.readWord_writeWord_ne w _ (by omega), List.getElem_cons_succ,
      show start + (k + 1) = start + 1 + k by omega]
    exact Memory.readWord_ofImage (by omega) (by omega)

theorem launch_legal {p : Params} {image : List Word} {regs : Vector Word 32} (hmap : p.opcodeMap.Legal)
    (hpc : p.pc0.toNat % 4 = 0) : (State.launch p image regs).Legal where
  memory := Memory.wf_ofImage 0 image
  pcAligned := lowBits_eq_zero_iff.2 hpc
  haltCode := Nat.zero_le 5
  opcodeMap := hmap

/-- Settles O17: the image is read back by `Memory.readWord_ofImage`, from word 0 on. -/
theorem launchHoldsTheImage : Obligations.LaunchHoldsTheImage := by
  intro p image regs hmap hpc hlen
  refine ⟨launch_legal hmap hpc, rfl, rfl, rfl, fun k hk => ?_⟩
  have hread := Memory.readWord_ofImage (start := 0) hk (by rw [Nat.zero_add]; exact hlen)
  rwa [Nat.zero_add] at hread

/-! Runs of cycles. -/

/-- A property that every cycle keeps holds after any number of cycles. -/
theorem runsTo_keeps {P : State → Prop} (hkeep : ∀ {s t}, P s → step s = .next t → P t) :
    ∀ {k : Nat} {s t : State}, P s → RunsTo k s t → P t
  | 0, _, _, hs, hrun => runsTo_zero.1 hrun ▸ hs
  | k + 1, s, t, hs, hrun => by
    rcases step_next_or_fault s with ⟨u, hu⟩ | ⟨-, hfault⟩
    · exact runsTo_keeps hkeep (hkeep hs hu) ((runsTo_succ hu).1 hrun)
    · cases (run_succ_fault hfault).symm.trans hrun

/-- Any number of cycles lead to a state or are stopped by the model fault, one cycle after a state that they reach. -/
theorem runsTo_or_modelFault : ∀ (k : Nat) (s : State), (∃ t, RunsTo k s t) ∨
    ∃ j t, RunsTo j s t ∧ RunsIntoModelFault k s (setHalt 5#3 t)
  | 0, s => .inl ⟨s, rfl⟩
  | k + 1, s => by
    rcases step_next_or_fault s with ⟨u, hu⟩ | ⟨-, hfault⟩
    · rcases runsTo_or_modelFault k u with ⟨t, ht⟩ | ⟨j, t, hj, hk⟩
      · exact .inl ⟨t, (runsTo_succ hu).2 ht⟩
      · exact .inr ⟨j + 1, t, (runsTo_succ hu).2 hj, (run_succ hu).trans hk⟩
    · exact .inr ⟨0, s, rfl, run_succ_fault hfault⟩

theorem setHalt_legal {s : State} (h : s.Legal) {c : BitVec 3} (hc : c.toNat ≤ 5) : (setHalt c s).Legal :=
  { h with haltCode := hc }

/-- Settles O18: the two ends of `runsTo_or_modelFault`; the state that the run or the fault ends with is legal because
every cycle keeps legality and HALT at most 4. -/
theorem runEndsLegalOrInModelFault : Obligations.RunEndsLegalOrInModelFault := by
  intro k s hs hhalt
  have hkeep {j t} (hrun : RunsTo j s t) : t.Legal ∧ t.halt.toNat ≤ 4 :=
    runsTo_keeps (P := fun s => s.Legal ∧ s.halt.toNat ≤ 4)
      (fun ⟨hl, h4⟩ h => ⟨step_keeps_legal hl h, step_keeps_halt_le (le_refl 4) h h4⟩) ⟨hs, hhalt⟩ hrun
  rcases runsTo_or_modelFault k s with ⟨t, ht⟩ | ⟨j, t, hj, hfault⟩
  · exact .inl ⟨t, ht, hkeep ht⟩
  · exact .inr ⟨setHalt 5#3 t, hfault, setHalt_legal (hkeep hj).1 (by decide), rfl⟩

/-- From an aligned PC no cycle raises MisalignedFetch. -/
theorem step_keeps_not_misalignedFetch {s t : State} (hal : lowBits s.pc = 0#2) (hs : s.halt ≠ 1#3)
    (h : step s = .next t) : t.halt ≠ 1#3 := by
  by_cases hrun : s.halt = 0#3
  · have hcause := (haltCodesHaveTheirCauses s t hrun h).1
    exact fun ht => hcause.1 ht (lowBits_eq_zero_iff.1 hal)
  · cases (step_of_halted hrun).symm.trans h
    exact hs

/-- Settles O19: alignment and HALT other than 1 together are kept by every cycle. -/
theorem misalignedFetchOnlyInFirstCycle : Obligations.MisalignedFetchOnlyInFirstCycle := by
  intro k s t hal hhalt hrun
  have hkeep := runsTo_keeps (P := fun s => lowBits s.pc = 0#2 ∧ s.halt ≠ 1#3)
    (fun ⟨hl, hs⟩ h => ⟨step_keeps_alignment h hl, step_keeps_not_misalignedFetch hl hs h⟩)
    ⟨lowBits_eq_zero_iff.2 hal, hhalt⟩ hrun
  exact ⟨lowBits_eq_zero_iff.1 hkeep.1, hkeep.2⟩

end Sys2Proof.Machine
end

section
/-! Each instruction by itself: its word, its control row and its effect (41_rtype.md, 42_jump_branch.md,
43_immediate.md, 44_load_store.md). -/

namespace Sys2Proof

/-- A word with the R-type opcode and the funct field of an R-type instruction decodes to it (R68). -/
theorem decode_of_funct {m : OpcodeMap} {w : Word} {i : Instr} {funct : BitVec 6} (hm : m.Legal)
    (hop : opField w = m.rType) (hfunct : functField w = funct)
    (hi : encode m i = encodeR m.rType (r1Field w) (r2Field w) (r3Field w) (ignoredField w) funct) :
    decode m w = .ok i := by
  have hw : encode m i = w := by rw [hi, ← hop, ← hfunct, encodeR_fields]
  exact hw ▸ decodeOfEncode m hm i

end Sys2Proof

namespace Sys2Proof.Machine

open Datapath

/-! R-type. -/

theorem aluToR3_eq (op : AluOp) (r1 r2 r3 : RegIdx) (s : State) :
    aluToR3 op r1 r2 r3 s =
      .next { writeReg r3 (aluResult op (readReg s r1) (readReg s r2)) s with pc := s.pc + 4#32 } := rfl

theorem boolWord_decide (p : Prop) [Decidable p] : boolWord (decide p) = if p then 1#32 else 0#32 := by
  simp only [boolWord, decide_eq_true_eq]

/-- Sign extension keeps the value, so the narrow comparison is that of the low halves (R104, decision D15). -/
theorem narrowSignedLess_eq (a b : Word) :
    narrowSignedLess a b = decide ((a.extractLsb' 0 16).toInt < (b.extractLsb' 0 16).toInt) := by
  simp only [narrowSignedLess, sext32, BitVec.toInt_signExtend_of_le (show 16 ≤ 32 by decide)]

theorem aluResult_signedLessThan (a b : Word) : aluResult .signedLessThan a b =
    if (a.extractLsb' 0 16).toInt < (b.extractLsb' 0 16).toInt then 1#32 else 0#32 := by
  rw [aluResult, narrowSignedLess_eq, boolWord_decide]

theorem aluResult_unsignedLessThan (a b : Word) :
    aluResult .unsignedLessThan a b = if a.toNat < b.toNat then 1#32 else 0#32 := by
  rw [aluResult, boolWord_decide]

/-- Settles O20: the word by its funct field, the effect by the meaning that the six share. -/
theorem addResult : Obligations.AddResult :=
  ⟨fun _ _ hm hop hfunct => decode_of_funct hm hop hfunct rfl, rfl, fun r1 r2 r3 _ s => aluToR3_eq .add r1 r2 r3 s⟩

/-- Settles O21, in the same way. -/
theorem subResult : Obligations.SubResult :=
  ⟨fun _ _ hm hop hfunct => decode_of_funct hm hop hfunct rfl, rfl,
    fun r1 r2 r3 _ s => aluToR3_eq .subtract r1 r2 r3 s⟩

/-- Settles O22, in the same way. -/
theorem andResult : Obligations.AndResult :=
  ⟨fun _ _ hm hop hfunct => decode_of_funct hm hop hfunct rfl, rfl, fun r1 r2 r3 _ s => aluToR3_eq .and r1 r2 r3 s⟩

/-- Settles O23, in the same way. -/
theorem orResult : Obligations.OrResult :=
  ⟨fun _ _ hm hop hfunct => decode_of_funct hm hop hfunct rfl, rfl, fun r1 r2 r3 _ s => aluToR3_eq .or r1 r2 r3 s⟩

/-- Settles O24, with the ALU's comparison read by `aluResult_signedLessThan`. -/
theorem sltResult : Obligations.SltResult := by
  refine ⟨fun _ _ hm hop hfunct => decode_of_funct hm hop hfunct rfl, rfl, fun r1 r2 r3 _ s => ?_⟩
  rw [← aluResult_signedLessThan]
  exact aluToR3_eq .signedLessThan r1 r2 r3 s

/-- Settles O25, with the ALU's comparison read by `aluResult_unsignedLessThan`. -/
theorem sltuResult : Obligations.SltuResult := by
  refine ⟨fun _ _ hm hop hfunct => decode_of_funct hm hop hfunct rfl, rfl, fun r1 r2 r3 _ s => ?_⟩
  rw [← aluResult_unsignedLessThan]
  exact aluToR3_eq .unsignedLessThan r1 r2 r3 s

/-! Jump and branch-equal. -/

/-- Settles O26: the jump target is written out in the statement. -/
theorem jResult : Obligations.JResult :=
  ⟨fun _ _ hm hop => decode_of_opcode hm .jump hop, fun _ => rfl, fun _ _ => rfl⟩

/-- Settles O27, by the two outcomes of the subtraction. -/
theorem beqResult : Obligations.BeqResult := by
  refine ⟨fun _ _ hm hop => decode_of_opcode hm .branchEqual hop, fun _ => rfl, fun r1 r2 offset s => ?_⟩
  change execBeq r1 r2 offset s = _
  unfold execBeq
  have hflag := zeroFlag_eq_true_iff (aluResult .subtract (readReg s r1) (readReg s r2))
  by_cases hz : readReg s r1 - readReg s r2 = 0#32
  · rw [if_pos hz, if_pos (hflag.2 hz)]
    rfl
  · rw [if_neg hz, if_neg fun h => hz (hflag.1 h)]
    rfl

/-! ALU-immediate. -/

/-- The write-back of rule R230 under both values of IMM_REGDST. -/
theorem aluImmediate_effect (op : AluOp) (r1 : RegIdx) (offset : BitVec 16) (s : State) :
    (s.params.immRegDst = false → aluImmediate op r1 offset s = .next { s with pc := s.pc + 4#32 }) ∧
    (s.params.immRegDst = true → aluImmediate op r1 offset s =
      .next { writeReg (offset.extractLsb' 11 5) (aluResult op (readReg s r1) (sext32 offset)) s with
              pc := s.pc + 4#32 }) :=
  ⟨fun h => aluImmediate_of_not_immRegDst h op r1 offset, fun h => aluImmediate_of_immRegDst h op r1 offset⟩

/-- Settles O28, by the write-back that the four share. -/
theorem addiResult : Obligations.AddiResult :=
  ⟨fun _ _ hm hop => decode_of_opcode hm .addImmediate hop, fun _ => rfl,
    fun r1 _ offset s => aluImmediate_effect .add r1 offset s⟩

/-- Settles O29: the low half of the sign-extended immediate is the immediate. -/
theorem sltiResult : Obligations.SltiResult := by
  refine ⟨fun _ _ hm hop => decode_of_opcode hm .setLessThanImmediate hop, fun _ => rfl, fun r1 _ offset s => ?_⟩
  have heffect := aluImmediate_effect .signedLessThan r1 offset s
  rw [aluResult_signedLessThan, lowerHalf_sext32] at heffect
  exact heffect

/-- Settles O30: the comparison of `aluResult_unsignedLessThan`, with the sign-extended immediate. -/
theorem sltiuResult : Obligations.SltiuResult := by
  refine ⟨fun _ _ hm hop => decode_of_opcode hm .setLessThanImmediateUnsigned hop, fun _ => rfl,
    fun r1 _ offset s => ?_⟩
  have heffect := aluImmediate_effect .unsignedLessThan r1 offset s
  rw [aluResult_unsignedLessThan] at heffect
  exact heffect

/-- The shift of the sign-extended immediate drops the copies of its sign (R234). -/
theorem aluResult_shiftLeft16_sext32 (a : Word) (offset : BitVec 16) :
    aluResult .shiftLeft16 a (sext32 offset) = offset ++ 0#16 := by
  have hshift : aluResult .shiftLeft16 a (sext32 offset) = (sext32 offset).extractLsb' 0 16 ++ 0#16 :=
    alu_shiftLeft16 a (sext32 offset)
  rw [hshift, lowerHalf_sext32]

/-- Settles O31, with the shift read by `aluResult_shiftLeft16_sext32`. -/
theorem luiResult : Obligations.LuiResult := by
  refine ⟨fun _ _ hm hop => decode_of_opcode hm .loadUpperImmediate hop, fun _ => rfl, fun r1 _ offset s => ?_⟩
  have heffect := aluImmediate_effect .shiftLeft16 r1 offset s
  rw [aluResult_shiftLeft16_sext32] at heffect
  exact heffect

/-! Load word and store word, by the answer of their access. -/

section
variable {r1 r2 : RegIdx} {offset : BitVec 16} {s : State}

theorem exec_lw_ok {v : Word} (h : memRead s (effectiveAddress s r1 offset) = .ok v) :
    exec (.lw r1 r2 offset) s = .next (advancePc (writeReg r2 v s)) := by
  simp only [exec, execLw, h]

theorem exec_lw_error {e : Halt} (h : memRead s (effectiveAddress s r1 offset) = .error e) :
    exec (.lw r1 r2 offset) s = raiseHalt e s := by
  simp only [exec, execLw, h]

theorem exec_sw_ok {t : State} (h : memWrite s (effectiveAddress s r1 offset) (readReg s r2) = .ok t) :
    exec (.sw r1 r2 offset) s = .next (advancePc t) := by
  simp only [exec, execSw, h]

theorem exec_sw_error {e : Halt} (h : memWrite s (effectiveAddress s r1 offset) (readReg s r2) = .error e) :
    exec (.sw r1 r2 offset) s = raiseHalt e s := by
  simp only [exec, execSw, h]

end

/-! The three answers of a data access, by the number of its address. -/

section
variable {s : State} {a : Word}

theorem memRead_denied (h : dataOk s.params.memAlignPolarity a = false) : memRead s a = .error .memoryAlignmentFault :=
  memRead_error_iff.2 (.inl ⟨h, rfl⟩)

theorem memRead_outOfRange (hok : dataOk s.params.memAlignPolarity a = true) (h : 65536 ≤ a.toNat) :
    memRead s a = .error .outOfRange :=
  memRead_error_iff.2 (.inr ⟨hok, memoryWords_le_idx_iff.2 h, rfl⟩)

theorem memRead_backed (hok : dataOk s.params.memAlignPolarity a = true) (h : a.toNat < 65536) :
    memRead s a = .ok (Memory.readWord s.mem (a.toNat / 4)) :=
  memRead_ok_iff.2 ⟨hok, idx_lt_memoryWords_iff.2 h, by rw [idx_eq_div]⟩

theorem memWrite_denied (h : dataOk s.params.memAlignPolarity a = false) (v : Word) :
    memWrite s a v = .error .memoryAlignmentFault :=
  memWrite_error_iff.2 (.inl ⟨h, rfl⟩)

theorem memWrite_outOfRange (hok : dataOk s.params.memAlignPolarity a = true) (h : 65536 ≤ a.toNat) (v : Word) :
    memWrite s a v = .error .outOfRange :=
  memWrite_error_iff.2 (.inr ⟨hok, memoryWords_le_idx_iff.2 h, rfl⟩)

theorem memWrite_backed (hok : dataOk s.params.memAlignPolarity a = true) (h : a.toNat < 65536) (v : Word) :
    memWrite s a v = .ok (setMem (Memory.writeWord s.mem (a.toNat / 4) v) s) :=
  memWrite_ok_iff.2 ⟨hok, idx_lt_memoryWords_iff.2 h, by rw [idx_eq_div]⟩

end

/-- Settles O32, by the three answers of the load. -/
theorem lwResult : Obligations.LwResult := by
  refine ⟨fun _ _ hm hop => decode_of_opcode hm .loadWord hop, fun _ => rfl, fun r1 r2 offset s a ha => ?_⟩
  change a = effectiveAddress s r1 offset at ha
  subst ha
  exact ⟨fun hok h => exec_lw_ok (memRead_backed hok (by omega)), fun hno => exec_lw_error (memRead_denied hno),
    fun hok h => exec_lw_error (memRead_outOfRange hok (by omega))⟩

/-- Settles O33, by the three answers of the store. -/
theorem swResult : Obligations.SwResult := by
  refine ⟨fun _ _ hm hop => decode_of_opcode hm .storeWord hop, fun _ => rfl, fun r1 r2 offset s a ha => ?_⟩
  change a = effectiveAddress s r1 offset at ha
  subst ha
  exact ⟨fun hok h => exec_sw_ok (memWrite_backed hok (by omega) _), fun hno => exec_sw_error (memWrite_denied hno _),
    fun hok h => exec_sw_error (memWrite_outOfRange hok (by omega) _)⟩

end Sys2Proof.Machine
end

section
/-! Frames: what each instruction and each cycle leaves unchanged (10_state.md sections 2 and 6, 20_memory.md sections
2, 3 and 5). -/

namespace Sys2Proof.Machine

/-! What each kind of instruction answers. -/

theorem exec_rType_next {i : Instr} {r1 r2 r3 : RegIdx} {g : BitVec 5} {s t : State}
    (hi : i ∈ [.add r1 r2 r3 g, .sub r1 r2 r3 g, .and r1 r2 r3 g, .or r1 r2 r3 g, .slt r1 r2 r3 g, .sltu r1 r2 r3 g])
    (h : exec i s = .next t) : ∃ v, t = advancePc (writeReg r3 v s) := by
  have hop : ∃ op, exec i s = aluToR3 op r1 r2 r3 s := by
    simp only [List.mem_cons, List.not_mem_nil, or_false] at hi
    rcases hi with rfl | rfl | rfl | rfl | rfl | rfl <;> exact ⟨_, rfl⟩
  obtain ⟨op, hop⟩ := hop
  exact ⟨_, aluToR3_next.1 (hop ▸ h)⟩

theorem exec_controlTransfer_next {i : Instr} {jsec : BitVec 26} {r1 r2 : RegIdx} {o : BitVec 16} {s t : State}
    (hi : i ∈ [.j jsec, .beq r1 r2 o]) (h : exec i s = .next t) : ∃ pc, t = setPc pc s := by
  simp only [List.mem_cons, List.not_mem_nil, or_false] at hi
  rcases hi with rfl | rfl
  · cases h
    exact ⟨_, rfl⟩
  · cases (execBeq_eq r1 r2 o s).symm.trans h
    exact ⟨_, rfl⟩

theorem exec_immediate_next {i : Instr} {r1 r2 : RegIdx} {o : BitVec 16} {s t : State}
    (hi : i ∈ [.addi r1 r2 o, .slti r1 r2 o, .sltiu r1 r2 o, .lui r1 r2 o]) (h : exec i s = .next t) :
    (s.params.immRegDst = false ∧ t = advancePc s) ∨
    (s.params.immRegDst = true ∧ ∃ v, t = advancePc (writeReg (offsetR3 o) v s)) := by
  have hop : ∃ op, exec i s = aluImmediate op r1 o s := by
    simp only [List.mem_cons, List.not_mem_nil, or_false] at hi
    rcases hi with rfl | rfl | rfl | rfl <;> exact ⟨_, rfl⟩
  obtain ⟨op, hop⟩ := hop
  exact (aluImmediate_next.1 (hop ▸ h)).imp_right fun ⟨hp, ht⟩ => ⟨hp, _, ht⟩

section
variable {r1 r2 : RegIdx} {o : BitVec 16} {s t : State}

theorem exec_lw_next (h : exec (.lw r1 r2 o) s = .next t) :
    (dataOk s.params.memAlignPolarity (effectiveAddress s r1 o) = true ∧ ∃ v, t = advancePc (writeReg r2 v s)) ∨
    (dataOk s.params.memAlignPolarity (effectiveAddress s r1 o) = false ∧ t = setHalt 4#3 s) := by
  cases hr : memRead s (effectiveAddress s r1 o) with
  | ok v =>
    obtain ⟨hok, -, -⟩ := memRead_ok_iff.1 hr
    cases (exec_lw_ok hr).symm.trans h
    exact .inl ⟨hok, v, rfl⟩
  | error e =>
    obtain ⟨hne, ht⟩ := raiseHalt_next ((exec_lw_error hr).symm.trans h)
    rcases memRead_error_iff.1 hr with ⟨hno, rfl⟩ | ⟨-, -, rfl⟩
    · exact .inr ⟨hno, ht⟩
    · exact absurd rfl hne

theorem exec_sw_next (h : exec (.sw r1 r2 o) s = .next t) :
    (dataOk s.params.memAlignPolarity (effectiveAddress s r1 o) = true ∧ idx (effectiveAddress s r1 o) < memoryWords ∧
      t = advancePc (setMem (Memory.writeWord s.mem (idx (effectiveAddress s r1 o)) (readReg s r2)) s)) ∨
    (dataOk s.params.memAlignPolarity (effectiveAddress s r1 o) = false ∧ t = setHalt 4#3 s) := by
  rcases exec_next_cases h with ⟨_, _, hdest, -⟩ | ⟨-, haddr, -⟩ | ⟨_, _, _, hi, hok, hidx, ht⟩ | ⟨a, ha, hno, ht⟩
  · cases hdest
  · cases haddr
  · cases hi
    exact .inl ⟨hok, hidx, ht⟩
  · cases ha
    exact .inr ⟨hno, ht⟩

end

/-! The frames. -/

/-- Settles O34: all six write one register and the PC. -/
theorem rTypeFrame : Obligations.RTypeFrame := by
  intro i r1 r2 r3 g s t hi h
  obtain ⟨v, rfl⟩ := exec_rType_next hi h
  exact ⟨fun r hr => readReg_writeReg_ne v s hr, rfl, rfl, fun _ => rfl⟩

/-- Settles O35: both only set the PC. -/
theorem controlTransferFrame : Obligations.ControlTransferFrame := by
  intro i jsec r1 r2 o s t hi h
  obtain ⟨pc, rfl⟩ := exec_controlTransfer_next hi h
  exact ⟨fun _ => rfl, rfl, rfl, fun _ => rfl⟩

/-- Settles O36, by the two values of IMM_REGDST. -/
theorem immediateFrame : Obligations.ImmediateFrame := by
  intro i r1 r2 o s t hi h
  rcases exec_immediate_next hi h with ⟨-, rfl⟩ | ⟨hp, v, rfl⟩
  · exact ⟨fun _ _ => rfl, rfl, rfl, fun _ => rfl⟩
  · refine ⟨fun r hr => ?_, rfl, rfl, fun _ => rfl⟩
    rcases hr with hp' | hne
    · simp [hp] at hp'
    · exact readReg_writeReg_ne v s hne

/-- Settles O37: a load that completes, and one whose access is not permitted. -/
theorem loadFrame : Obligations.LoadFrame := by
  intro r1 r2 o s t h
  rcases exec_lw_next h with ⟨hok, v, rfl⟩ | ⟨hno, rfl⟩
  · exact ⟨fun r hr => readReg_writeReg_ne v s hr, rfl, fun _ => rfl, fun _ => rfl, fun hno => by simp [hok] at hno⟩
  · exact ⟨fun _ _ => rfl, rfl, fun _ => rfl, fun hok => by simp [hno] at hok, fun _ => ⟨fun _ => rfl, rfl⟩⟩

/-- Settles O38: a store that completes, and one whose access is not permitted. -/
theorem storeFrame : Obligations.StoreFrame := by
  intro r1 r2 o s t h
  rcases exec_sw_next h with ⟨hok, -, rfl⟩ | ⟨hno, rfl⟩
  · exact ⟨fun _ => rfl, rfl, fun a ha => Memory.getByte_writeWord_outside _ _ (by omega), fun _ => rfl,
      fun hno => by simp [hok] at hno⟩
  · exact ⟨fun _ => rfl, rfl, fun _ _ => rfl, fun hok => by simp [hno] at hok, fun _ => ⟨fun _ => rfl, rfl⟩⟩

/-! Whole cycles. -/

/-- A register that an instruction changes is its destination. -/
theorem destination_of_readReg_ne {i : Instr} {s t : State} {r : RegIdx} (h : exec i s = .next t)
    (hr : readReg t r ≠ readReg s r) : destination s.params i = some r := by
  rcases exec_next_cases h with ⟨r', v, hdest, rfl⟩ | ⟨-, -, pc, rfl⟩ | ⟨_, _, _, -, -, -, rfl⟩ | ⟨a, -, -, rfl⟩
  · by_cases heq : r = r'
    · exact heq ▸ hdest
    · exact absurd (readReg_writeReg_ne v s heq) hr
  · exact absurd rfl hr
  · exact absurd rfl hr
  · exact absurd rfl hr

/-- A byte that an instruction changes lies in the word that a store word names. -/
theorem store_of_getByte_ne {i : Instr} {s t : State} {a : Nat} (h : exec i s = .next t)
    (ha : Memory.getByte t.mem a ≠ Memory.getByte s.mem a) :
    ∃ r1 r2 o, i = .sw r1 r2 o ∧ a / 4 = idx (effectiveAddress s r1 o) ∧ a < 65536 := by
  rcases exec_next_cases h with ⟨r', v, -, rfl⟩ | ⟨-, -, pc, rfl⟩ | ⟨r1, r2, o, hi, -, hidx, rfl⟩ | ⟨_, -, -, rfl⟩
  · exact absurd rfl ha
  · exact absurd rfl ha
  · have hin : ¬(a < 4 * idx (effectiveAddress s r1 o) ∨ 4 * idx (effectiveAddress s r1 o) + 3 < a) :=
      fun hout => ha (Memory.getByte_writeWord_outside (readReg s r2) s.mem hout)
    rw [memoryWords] at hidx
    exact ⟨r1, r2, o, hi, by omega, by omega⟩
  · exact absurd rfl ha

/-- Settles O39: of the ways to a next state only an instruction that ran to its end changes a register. -/
theorem onlyTheDestinationRegisterChanges : Obligations.OnlyTheDestinationRegisterChanges := by
  intro s t r hstep hr
  rcases step_next_cases hstep with ⟨-, rfl⟩ | ⟨-, e, -, rfl⟩ | ⟨hrun, hzero, i, -, hd, hexec⟩
  · exact absurd rfl hr
  · exact absurd rfl hr
  · exact ⟨hrun, hzero, i, hd, destination_of_readReg_ne hexec hr⟩

/-- Settles O40, in the same way. -/
theorem onlyStoreWordChangesMemory : Obligations.OnlyStoreWordChangesMemory := by
  intro s t a hstep ha
  rcases step_next_cases hstep with ⟨-, rfl⟩ | ⟨-, e, -, rfl⟩ | ⟨-, -, i, -, hd, hexec⟩
  · exact absurd rfl ha
  · exact absurd rfl ha
  · obtain ⟨r1, r2, o, rfl, hword, hlt⟩ := store_of_getByte_ne hexec ha
    exact ⟨r1, r2, o, hd, hword, hlt⟩

/-! A store is seen by the next cycle. -/

/-- After a permitted store its word reads as the stored register; HALT and the parameters are unchanged. -/
theorem readWord_of_exec_sw {r1 r2 : RegIdx} {o : BitVec 16} {s t : State} (hm : Memory.wf s.mem = true)
    (h : exec (.sw r1 r2 o) s = .next t) (hok : dataOk s.params.memAlignPolarity (effectiveAddress s r1 o) = true) :
    idx (effectiveAddress s r1 o) < memoryWords ∧
      Memory.readWord t.mem (idx (effectiveAddress s r1 o)) = readReg s r2 ∧ t.halt = s.halt ∧ t.params = s.params := by
  rcases exec_sw_next h with ⟨-, hidx, rfl⟩ | ⟨hno, -⟩
  · exact ⟨hidx, Memory.readWord_writeWord_same _ hidx hm, rfl, rfl⟩
  · simp [hok] at hno

/-- Settles O41: the load's access succeeds and reads the word of `readWord_of_exec_sw`. -/
theorem loadAfterStore : Obligations.LoadAfterStore := by
  intro s t r1 r2 r1' r2' o o' hm h hok hsame hok'
  obtain ⟨hidx, hword, -, -⟩ := readWord_of_exec_sw hm h hok
  rw [← hsame] at hidx hword
  exact exec_lw_ok (memRead_ok_iff.2 ⟨hok', hidx, hword.symm⟩)

/-- Settles O42: the fetch at the new PC reads the word of `readWord_of_exec_sw`. -/
theorem storeIsSeenByNextFetch : Obligations.StoreIsSeenByNextFetch := by
  intro s t r1 r2 o i hm hrun h hok hal hsame hd
  obtain ⟨hidx, hword, hhalt, hparams⟩ := readWord_of_exec_sw hm h hok
  rw [← hsame] at hidx hword
  exact step_of_decode_ok (hhalt.trans hrun) (memFetch_ok_iff.2 ⟨lowBits_eq_zero_iff.2 hal, hidx, hword.symm⟩)
    (hparams ▸ hd)

/-! Register 0 and reset. -/

/-- Settles O43: the write is read back, and the OR of the register with itself copies it. -/
theorem registerZeroIsOrdinary : Obligations.RegisterZeroIsOrdinary := by
  intro r1 r2 g s
  refine ⟨_, rfl, readReg_writeReg_same _ _ s, fun r g' => ⟨_, rfl, ?_⟩⟩
  rw [readReg_advancePc, readReg_writeReg_same, readReg_advancePc, readReg_writeReg_same]
  exact BitVec.or_self

theorem readReg_resetInput (s : State) (r : RegIdx) : readReg s.resetInput r = 0#32 := by
  simp [readReg, State.resetInput]

/-- Settles O44: the fields of the reset input, and the reset state by evaluation. -/
theorem resetInputState : Obligations.ResetInputState :=
  ⟨fun s => ⟨readReg_resetInput s, rfl, rfl, rfl, rfl⟩, rfl, rfl, rfl, rfl⟩

end Sys2Proof.Machine
end

section
/-! The control units and the PCUpdateUnit over all their inputs (40_datapath.md rules R104, R115, R117, R122 and
R130), and the two data accesses by the number of their address (20_memory.md rules R44 to R46). -/

namespace Sys2Proof.Machine.Datapath

/-! The ALU's narrow comparison. -/

theorem alu_signedLessThan (a b : Word) :
    alu a b 2#3 = (aluResult .signedLessThan a b, zeroFlag (aluResult .signedLessThan a b)) := rfl

/-- Settles O46: Result and Zero are functions of the two low halves. -/
theorem narrowSignedLessThan : Obligations.NarrowSignedLessThan := by
  intro a b
  refine ⟨?_, fun a' b' ha hb => ?_⟩
  · rw [alu_signedLessThan, aluResult_signedLessThan]
    simp only [BitVec.slt, decide_eq_true_eq]
  · rw [alu_signedLessThan, alu_signedLessThan, aluResult_signedLessThan, aluResult_signedLessThan, ha, hb]

/-! The ControlUnit and the resolver. -/

theorem controlUnit_of_opcode {p : Params} (hm : p.opcodeMap.Legal) (c : OpClass) :
    controlUnit p (p.opcodeMap.opcode c) = .ok (controlRow p c) :=
  controlUnit_of_classify (OpcodeMap.classify_opcode hm c)

/-- Settles O49, row by row. -/
theorem controlTableRows : Obligations.ControlTableRows := fun _ hm =>
  ⟨controlUnit_of_opcode hm .rType, controlUnit_of_opcode hm .jump, controlUnit_of_opcode hm .branchEqual,
    controlUnit_of_opcode hm .addImmediate, controlUnit_of_opcode hm .setLessThanImmediate,
    controlUnit_of_opcode hm .setLessThanImmediateUnsigned, controlUnit_of_opcode hm .loadUpperImmediate,
    controlUnit_of_opcode hm .loadWord, controlUnit_of_opcode hm .storeWord⟩

/-- The ControlUnit answers rows of the table alone, each for its class's opcode. -/
theorem controlUnit_ok {p : Params} {op : BitVec 6} {ctl : ControlSignals} (h : controlUnit p op = .ok ctl) :
    ∃ c, p.opcodeMap.opcode c = op ∧ ctl = controlRow p c := by
  cases hc : p.opcodeMap.classify op with
  | none => cases (controlUnit_of_classify_none hc).symm.trans h
  | some c =>
    cases (controlUnit_of_classify hc).symm.trans h
    exact ⟨c, OpcodeMap.opcode_of_classify hc, rfl⟩

theorem immRegDstCell_eq (p : Params) : immRegDstCell p = 0#2 ∨ immRegDstCell p = 1#2 := by
  unfold immRegDstCell
  split
  · exact .inr rfl
  · exact .inl rfl

/-- The rows that write a register name one by RegDst 0 or 1. -/
theorem regDst_of_regWrite (p : Params) (c : OpClass) (h : (controlRow p c).regWrite = 1#1) :
    (controlRow p c).regDst = 0#2 ∨ (controlRow p c).regDst = 1#2 := by
  cases c with
  | rType => exact .inr rfl
  | loadWord => exact .inl rfl
  | addImmediate => exact immRegDstCell_eq p
  | setLessThanImmediate => exact immRegDstCell_eq p
  | setLessThanImmediateUnsigned => exact immRegDstCell_eq p
  | loadUpperImmediate => exact immRegDstCell_eq p
  | jump => simp [controlRow] at h
  | branchEqual => simp [controlRow] at h
  | storeWord => simp [controlRow] at h

theorem memtoReg_eq_one_iff (p : Params) (c : OpClass) : (controlRow p c).memtoReg = 1#1 ↔ c = .loadWord := by
  cases c <;> simp [controlRow]

theorem aluOp_eq_seven_iff (p : Params) (c : OpClass) : (controlRow p c).aluOp = 7#3 ↔ c = .rType := by
  cases c <;> simp [controlRow]

/-- Settles O50: the properties of the nine rows, and the opcode of the two rows that are named. -/
theorem controlTableProperties : Obligations.ControlTableProperties := by
  intro p op ctl h
  obtain ⟨c, rfl, rfl⟩ := controlUnit_ok h
  refine ⟨?_, ?_, regDst_of_regWrite p c, fun hload => ?_, fun hseven => ?_⟩
  · cases c <;> simp [controlRow]
  · cases c <;> simp [controlRow]
  · obtain rfl := (memtoReg_eq_one_iff p c).1 hload
    exact ⟨rfl, rfl⟩
  · obtain rfl := (aluOp_eq_seven_iff p c).1 hseven
    rfl

/-- The resolver passes on an ALUOp other than 7, and its funct table has no code 7. -/
theorem aluControlResolver_ne_seven {aluOp aluControl : BitVec 3} {funct : BitVec 6}
    (h : aluControlResolver aluOp funct = .ok aluControl) : aluControl ≠ 7#3 := by
  by_cases hop : aluOp = 7#3
  · subst hop
    rw [aluControlResolver, if_pos rfl] at h
    split_ifs at h
    all_goals
      injection h with h
      subst h
      decide
  · cases (aluControlResolver_of_ne_seven funct hop).symm.trans h
    exact hop

/-- Settles O51: no answer of the resolver is 7, for a row of the table or any other ALUOp. -/
theorem noWordSelectsNot : Obligations.NoWordSelectsNot := fun _ _ _ _ _ h => aluControlResolver_ne_seven h

/-! The PCUpdateUnit. -/

theorem pcUpdate_not_zero (pc : Word) (jsec : BitVec 26) (extended : Word) (jump branch : BitVec 1) :
    pcUpdate pc jsec extended jump branch false = pcUpdate pc jsec extended jump 0#1 true := by
  simp [pcUpdate]

/-- Each of the three adjustments keeps a multiple of 4 (R26). -/
theorem pcUpdate_keeps_alignment {pc : Word} (hal : lowBits pc = 0#2) (jsec : BitVec 26) (offset : BitVec 16)
    (jump branch : BitVec 1) (zero : Bool) : lowBits (pcUpdate pc jsec (sext32 offset) jump branch zero) = 0#2 := by
  have hjumped : lowBits (if jump = 1#1 then jumpTarget (pc + 4#32) jsec else pc + 4#32) = 0#2 := by
    split
    · exact lowBits_jumpTarget (pc + 4#32) jsec
    · exact lowBits_add_four hal
  unfold pcUpdate
  by_cases htaken : branch = 1#1 ∧ zero = true
  · rw [if_pos htaken]
    exact lowBits_add hjumped (lowBits_branchDisplacement offset)
  · rw [if_neg htaken]
    exact hjumped

/-- Settles O54: the four combinations of the control inputs by evaluation, the rest by the lemmas above. -/
theorem pcUpdateIsSequential : Obligations.PcUpdateIsSequential := by
  intro pc jsec offset jump branch zero
  refine ⟨rfl, rfl, rfl, rfl, pcUpdate_not_zero pc jsec _ jump branch, fun hal => ?_⟩
  exact lowBits_eq_zero_iff.1 (pcUpdate_keeps_alignment (lowBits_eq_zero_iff.2 hal) jsec offset jump branch zero)

end Sys2Proof.Machine.Datapath

namespace Sys2Proof.Machine

/-! The data accesses. -/

theorem dataOk_inverted_iff (a : Word) : dataOk .inverted a = true ↔ a.toNat % 4 ≠ 0 := by
  rw [dataOk, decide_eq_true_iff, ne_eq, lowBits_eq_zero_iff]

theorem dataOk_conventional_iff (a : Word) : dataOk .conventional a = true ↔ a.toNat % 4 = 0 := by
  rw [dataOk, decide_eq_true_iff, lowBits_eq_zero_iff]

/-- Settles O55: the two polarities and the three answers of the load. -/
theorem dataReadChecks : Obligations.DataReadChecks := fun _ a =>
  ⟨dataOk_inverted_iff a, dataOk_conventional_iff a, memRead_denied, memRead_outOfRange, memRead_backed⟩

/-- Settles O56: the three answers of the store; the memory it leaves is `Memory.writeWord`'s. -/
theorem dataWriteReplacesOneWord : Obligations.DataWriteReplacesOneWord := by
  intro s a v
  refine ⟨fun hno => memWrite_denied hno v, fun hok h => memWrite_outOfRange hok h v, fun hok h hm => ?_⟩
  have hidx : a.toNat / 4 < memoryWords := by rw [memoryWords]; omega
  exact ⟨_, memWrite_backed hok h v, rfl, Memory.wf_writeWord v hidx hm, Memory.readWord_writeWord_same v hidx hm,
    fun k hk => Memory.readWord_writeWord_ne v s.mem hk⟩

end Sys2Proof.Machine
end

section
/-! Runs (70_reset_and_hazards.md rule R343). `runEnd` stops at the first halt; as a halted core is frozen, that is
the end which the same number of cycles lead to. -/

namespace Sys2Proof.Machine

/-- How a run has ended, read from what its cycles answer. -/
def endOf : Host.Outcome State Fault Refusal → RunEnd
  | .next t => if t.halt = 0#3 then .outOfFuel else .halted t.report
  | .fault (.outOfRange final) => .modelFault final.report
  | .refused r => .refused r

theorem endOf_running {t : State} (h : t.halt = 0#3) : endOf (.next t) = .outOfFuel := if_pos h

theorem endOf_halted {t : State} (h : t.halt ≠ 0#3) : endOf (.next t) = .halted t.report := if_neg h

section
variable {x : Host.Outcome State Fault Refusal}

theorem endOf_eq_halted_iff {o : RunOutcome} :
    endOf x = .halted o ↔ ∃ t, x = .next t ∧ t.halt ≠ 0#3 ∧ o = t.report := by
  cases x with
  | next t =>
    by_cases ht : t.halt = 0#3
    · simp [endOf_running ht, ht]
    · rw [endOf_halted ht]
      exact ⟨fun h => ⟨t, rfl, ht, (RunEnd.halted.inj h).symm⟩, by rintro ⟨_, ⟨rfl⟩, -, rfl⟩; rfl⟩
  | fault f => simp [endOf]
  | refused r => simp [endOf]

theorem endOf_eq_modelFault_iff {o : RunOutcome} :
    endOf x = .modelFault o ↔ ∃ final, x = .fault (.outOfRange final) ∧ o = final.report := by
  cases x with
  | next t => by_cases ht : t.halt = 0#3 <;> simp [endOf, ht]
  | fault f => cases f; simp [endOf, eq_comm]
  | refused r => simp [endOf]

theorem endOf_eq_outOfFuel_iff : endOf x = .outOfFuel ↔ ∃ t, x = .next t ∧ t.halt = 0#3 := by
  cases x with
  | next t => by_cases ht : t.halt = 0#3 <;> simp [endOf, ht]
  | fault f => simp [endOf]
  | refused r => simp [endOf]

theorem endOf_eq_refused_iff {r : Refusal} : endOf x = .refused r ↔ x = .refused r := by
  cases x with
  | next t => by_cases ht : t.halt = 0#3 <;> simp [endOf, ht]
  | fault f => simp [endOf]
  | refused r => simp [endOf]

end

/-- A run from a running state ends as its cycles do. -/
theorem runEnd_eq_endOf : ∀ (fuel : Nat) {s : State}, s.halt = 0#3 →
    runEnd fuel s = endOf (Host.Core.run Sys2Proof.core fuel s)
  | 0, _, hs => (endOf_running hs).symm
  | fuel + 1, s, hs => by
    rcases step_next_or_fault s with ⟨t, hstep⟩ | ⟨-, hstep⟩
    · rw [run_succ hstep]
      by_cases ht : t.halt = 0#3
      · rw [runEnd_running hstep ht, runEnd_eq_endOf fuel ht]
      · rw [runEnd_halting hstep ht, runsTo_of_halted ht fuel]
        exact (endOf_halted ht).symm
    · rw [runEnd_fault hstep, run_succ_fault hstep]
      rfl

/-- Cycles after the first halt change nothing. -/
theorem runsTo_of_halted_earlier : ∀ {k fuel : Nat} {s t : State}, k ≤ fuel → RunsTo k s t → t.halt ≠ 0#3 →
    RunsTo fuel s t
  | 0, fuel, s, t, _, hrun, ht => by
    obtain rfl := runsTo_zero.1 hrun
    exact runsTo_of_halted ht fuel
  | k + 1, fuel + 1, s, t, hle, hrun, ht => by
    rcases step_next_or_fault s with ⟨u, hu⟩ | ⟨-, hfault⟩
    · exact (runsTo_succ hu).2 (runsTo_of_halted_earlier (Nat.le_of_succ_le_succ hle) ((runsTo_succ hu).1 hrun) ht)
    · cases (run_succ_fault hfault).symm.trans hrun

theorem runsTo_unique {k : Nat} {s t t' : State} (h : RunsTo k s t) (h' : RunsTo k s t') : t = t' := by
  cases h.symm.trans h'
  rfl

/-- A run to a halted state has a first cycle after which HALT is not 0. -/
theorem exists_first_halt : ∀ {fuel : Nat} {s t : State}, s.halt = 0#3 → RunsTo fuel s t → t.halt ≠ 0#3 →
    ∃ k, k < fuel ∧ (∀ j u, j ≤ k → RunsTo j s u → u.halt = 0#3) ∧ RunsTo (k + 1) s t
  | 0, s, t, hs, hrun, ht => absurd (runsTo_zero.1 hrun ▸ hs) ht
  | fuel + 1, s, t, hs, hrun, ht => by
    rcases step_next_or_fault s with ⟨v, hv⟩ | ⟨-, hfault⟩
    · rw [runsTo_succ hv] at hrun
      by_cases hrunning : v.halt = 0#3
      · obtain ⟨k, hk, hbefore, hend⟩ := exists_first_halt hrunning hrun ht
        refine ⟨k + 1, Nat.succ_lt_succ hk, fun j u hj hu => ?_, (runsTo_succ hv).2 hend⟩
        cases j with
        | zero => exact runsTo_zero.1 hu ▸ hs
        | succ j => exact hbefore j u (Nat.le_of_succ_le_succ hj) ((runsTo_succ hv).1 hu)
      · obtain rfl := runsTo_unique (runsTo_of_halted hrunning fuel) hrun
        refine ⟨0, Nat.succ_pos fuel, fun j u hj hu => ?_, (runsTo_succ hv).2 rfl⟩
        obtain rfl := Nat.le_zero.1 hj
        exact runsTo_zero.1 hu ▸ hs
    · cases (run_succ_fault hfault).symm.trans hrun

theorem run_not_refused (k : Nat) (s : State) (r : Refusal) : Host.Core.run Sys2Proof.core k s ≠ .refused r := by
  intro hr
  rcases runsTo_or_modelFault k s with ⟨t, ht⟩ | ⟨-, t, -, hfault⟩
  · cases ht.symm.trans hr
  · cases hfault.symm.trans hr

theorem report_eq_iff {o : RunOutcome} {t : State} :
    o = t.report ↔ o.halt = t.halt ∧ o.pc = t.pc ∧ o.x = t.x ∧ o.mem = t.mem := by
  cases o
  simp [State.report]

/-- Settles O57: each kind of end by what `endOf` says of the cycles' answer; for a halt, its first cycle is found by
`exists_first_halt`. -/
theorem runEndsAtFirstHalt : Obligations.RunEndsAtFirstHalt := by
  intro fuel s hs
  rw [runEnd_eq_endOf fuel hs]
  refine ⟨fun o => endOf_eq_halted_iff.trans ⟨fun ⟨t, hrun, ht, ho⟩ => ?_, fun ⟨k, t, hk, _, hrun, ht, ho⟩ => ?_⟩,
    fun o => endOf_eq_modelFault_iff, endOf_eq_outOfFuel_iff, fun r hr => ?_⟩
  · obtain ⟨k, hk, hbefore, hend⟩ := exists_first_halt hs hrun ht
    exact ⟨k, t, hk, hbefore, hend, ht, report_eq_iff.1 ho⟩
  · exact ⟨t, runsTo_of_halted_earlier hk hrun ht, ht, report_eq_iff.2 ho⟩
  · exact run_not_refused fuel s r (endOf_eq_refused_iff.1 hr)

/-- Settles O58, by induction on the fuel: the first cycle ends both runs or neither. -/
theorem largerFuelKeepsTheOutcome : Obligations.LargerFuelKeepsTheOutcome := by
  intro fuel more
  induction fuel with
  | zero => exact fun s h => absurd (runEnd_zero s) h
  | succ fuel ih =>
    intro s h
    rw [Nat.succ_add]
    rcases runEnd_succ_cases fuel s with ⟨t, hstep, ht, hend⟩ | ⟨t, hstep, ht, hend⟩ | ⟨final, hstep, hend⟩ |
      ⟨r, hstep, -⟩
    · rw [hend] at h ⊢
      rw [runEnd_running hstep ht, ih t h]
    · rw [hend, runEnd_halting hstep ht]
    · rw [hend, runEnd_fault hstep]
    · rcases step_next_or_fault s with ⟨t, ht⟩ | ⟨-, hfault⟩
      · cases ht.symm.trans hstep
      · cases hfault.symm.trans hstep

/-- The branch of offset -1 with a register and itself goes back to its own PC. -/
theorem exec_selfBranch (s : State) (r : RegIdx) : exec (.beq r r 0xFFFF#16) s = .next s := by
  have htarget : beqTarget s r r 0xFFFF#16 = s.pc := by
    have hback : branchDisplacement 0xFFFF#16 = -4#32 := by decide
    rw [beqTarget, if_pos rfl, hback, BitVec.add_assoc, BitVec.add_right_neg, BitVec.add_zero]
  exact (execBeq_eq r r 0xFFFF#16 s).trans (htarget ▸ rfl)

/-- Settles O59, by induction on the fuel: every cycle leads back to the same state. -/
theorem selfBranchNeverEnds : Obligations.SelfBranchNeverEnds := by
  intro fuel s r hs hal hback hdecode
  have hstep : step s = .next s := (stepRunsDecodedInstruction s _ hs hal hback hdecode).trans (exec_selfBranch s r)
  induction fuel with
  | zero => rfl
  | succ fuel ih => rw [runEnd_running hstep hs, ih]

end Sys2Proof.Machine
end
